-- ==== Sys2Proof/Word.lean ====
section
/-!
DEFINITION. Word.lean: the widths of the core (spec/00_scope.md R8) as types.
-/

namespace Sys2Proof

/-- A general register, a timer, a memory byte: 8 bits, unsigned (R30, R40, R47). -/
abbrev Byte := BitVec 8

/-- An instruction word, `pc`, `I`, a stack entry: 16 bits, unsigned (R33, R37, R39, R100). -/
abbrev Word := BitVec 16

/-- The address field `nnn` of an instruction (R101). -/
abbrev Addr := BitVec 12

/-- A register index 0..15, a 4-bit instruction field (R32, R104). -/
abbrev RegIx := Fin 16

/-- The row count `n` of Dxyn, 0..15 (R103). -/
abbrev Rows := Fin 16

/-- A snapshot of the sixteen keys, `true` meaning pressed (R44, R141). -/
abbrev Keys := Vector Bool 16

end Sys2Proof
end

