-- ==== Sys2Proof/Syntax.lean ====
section
/-!
DEFINITION. Syntax.lean: the 35 instructions of the opcode map (spec/30_encoding.md R113,
spec/opcode_table.json), one constructor per row, in the table's order.
-/

namespace Sys2Proof

inductive Instr where
  /-- 00E0: clear the framebuffer (R170). -/
  | cls
  /-- 00EE: return from subroutine (R192). -/
  | ret
  /-- 0nnn: legacy machine-code call, a no-op; never 00E0 or 00EE (R106, R193). -/
  | sys (nnn : Addr)
  /-- 1nnn: jump (R194). -/
  | jp (nnn : Addr)
  /-- 2nnn: call subroutine (R195). -/
  | call (nnn : Addr)
  /-- 3xkk: skip if Vx = kk (R196). -/
  | seImm (x : RegIx) (kk : Byte)
  /-- 4xkk: skip if Vx differs from kk (R197). -/
  | sneImm (x : RegIx) (kk : Byte)
  /-- 5xy0: skip if Vx = Vy (R198). -/
  | seReg (x y : RegIx)
  /-- 6xkk: load immediate (R220). -/
  | ldImm (x : RegIx) (kk : Byte)
  /-- 7xkk: add immediate, no flag (R221). -/
  | addImm (x : RegIx) (kk : Byte)
  /-- 8xy0: copy register (R222). -/
  | ldReg (x y : RegIx)
  /-- 8xy1: bitwise or (R223). -/
  | orReg (x y : RegIx)
  /-- 8xy2: bitwise and (R224). -/
  | andReg (x y : RegIx)
  /-- 8xy3: bitwise exclusive or (R225). -/
  | xorReg (x y : RegIx)
  /-- 8xy4: add with carry into VF (R230). -/
  | addReg (x y : RegIx)
  /-- 8xy5: subtract Vy from Vx (R231). -/
  | sub (x y : RegIx)
  /-- 8xy6: shift Vx right by one; y is encoded and not read (R232). -/
  | shr (x y : RegIx)
  /-- 8xy7: subtract Vx from Vy into Vx (R233). -/
  | subn (x y : RegIx)
  /-- 8xyE: shift Vx left by one; y is encoded and not read (R234). -/
  | shl (x y : RegIx)
  /-- 9xy0: skip if Vx differs from Vy (R199). -/
  | sneReg (x y : RegIx)
  /-- Annn: load the index register (R260). -/
  | ldI (nnn : Addr)
  /-- Bnnn: jump to nnn + V0 (R200). -/
  | jpV0 (nnn : Addr)
  /-- Cxkk: random byte masked by kk (R235). -/
  | rnd (x : RegIx) (kk : Byte)
  /-- Dxyn: draw an n-row sprite at (Vx, Vy) (R171). -/
  | drw (x y : RegIx) (n : Rows)
  /-- Ex9E: skip if the key named by Vx is pressed (R290). -/
  | skp (x : RegIx)
  /-- ExA1: skip if the key named by Vx is not pressed (R291). -/
  | sknp (x : RegIx)
  /-- Fx07: read the delay timer (R292). -/
  | ldVxDt (x : RegIx)
  /-- Fx0A: wait for a key press (R293). -/
  | ldVxK (x : RegIx)
  /-- Fx15: set the delay timer (R294). -/
  | ldDtVx (x : RegIx)
  /-- Fx18: set the sound timer (R295). -/
  | ldStVx (x : RegIx)
  /-- Fx1E: add Vx to the index register (R261). -/
  | addIVx (x : RegIx)
  /-- Fx29: point the index register at a font glyph (R262). -/
  | ldFVx (x : RegIx)
  /-- Fx33: store the decimal digits of Vx (R263). -/
  | ldBVx (x : RegIx)
  /-- Fx55: store V0..Vx (R264). -/
  | ldMemVx (x : RegIx)
  /-- Fx65: load V0..Vx (R265). -/
  | ldVxMem (x : RegIx)
  deriving DecidableEq, Repr

end Sys2Proof
end

