-- ==== Sys2Proof/Decode.lean ====
section
/-!
DEFINITION. Decode.lean: the decoder (spec/30_encoding.md R101 to R112), the encoder written from
the opcode map (R102, R113), and the byte order of an instruction (spec/20_memory.md R71).
-/

namespace Sys2Proof

/-- Why a sequence of bytes is no instruction. -/
inductive Reject where
  /-- The decoder's verdict for an illegal word (R105, R115). -/
  | undefinedOpcode (w : Word)
  /-- Fewer than the two bytes every instruction has (R100). -/
  | truncated
  deriving DecidableEq, Repr

/-! The five fields (R101). -/

/-- `op`, w[15:12]. -/
def fieldOp (w : Word) : BitVec 4 := w.extractLsb' 12 4
/-- `x`, w[11:8]. -/
def fieldX (w : Word) : RegIx := (w.extractLsb' 8 4).toFin
/-- `y`, w[7:4]. -/
def fieldY (w : Word) : RegIx := (w.extractLsb' 4 4).toFin
/-- `n`, w[3:0], as the selector of families 5, 8 and 9. -/
def fieldN (w : Word) : BitVec 4 := w.extractLsb' 0 4
/-- `n`, w[3:0], as the row count of Dxyn. -/
def fieldRows (w : Word) : Rows := (fieldN w).toFin
/-- `kk`, w[7:0]. -/
def fieldKk (w : Word) : Byte := w.extractLsb' 0 8
/-- `nnn`, w[11:0]. -/
def fieldNnn (w : Word) : Addr := w.extractLsb' 0 12

/-- Family 0 (R106): the whole word selects CLS and RET, every other word is SYS. -/
def decode0 (w : Word) : Except Reject Instr :=
  if w = 0x00E0#16 then .ok .cls
  else if w = 0x00EE#16 then .ok .ret
  else .ok (.sys (fieldNnn w))

/-- Family 5 (R108): only the low nibble 0 is defined. -/
def decode5 (w : Word) : Except Reject Instr :=
  if fieldN w = 0x0#4 then .ok (.seReg (fieldX w) (fieldY w))
  else .error (.undefinedOpcode w)

/-- Family 8 (R107): the low nibble selects the operation. -/
def decode8 (w : Word) : Except Reject Instr :=
  match fieldN w with
  | 0x0#4 => .ok (.ldReg (fieldX w) (fieldY w))
  | 0x1#4 => .ok (.orReg (fieldX w) (fieldY w))
  | 0x2#4 => .ok (.andReg (fieldX w) (fieldY w))
  | 0x3#4 => .ok (.xorReg (fieldX w) (fieldY w))
  | 0x4#4 => .ok (.addReg (fieldX w) (fieldY w))
  | 0x5#4 => .ok (.sub (fieldX w) (fieldY w))
  | 0x6#4 => .ok (.shr (fieldX w) (fieldY w))
  | 0x7#4 => .ok (.subn (fieldX w) (fieldY w))
  | 0xE#4 => .ok (.shl (fieldX w) (fieldY w))
  | _ => .error (.undefinedOpcode w)

/-- Family 9 (R108): only the low nibble 0 is defined. -/
def decode9 (w : Word) : Except Reject Instr :=
  if fieldN w = 0x0#4 then .ok (.sneReg (fieldX w) (fieldY w))
  else .error (.undefinedOpcode w)

/-- Family E (R109): the low byte selects. -/
def decodeE (w : Word) : Except Reject Instr :=
  match fieldKk w with
  | 0x9E#8 => .ok (.skp (fieldX w))
  | 0xA1#8 => .ok (.sknp (fieldX w))
  | _ => .error (.undefinedOpcode w)

/-- Family F (R110): the low byte selects. -/
def decodeF (w : Word) : Except Reject Instr :=
  match fieldKk w with
  | 0x07#8 => .ok (.ldVxDt (fieldX w))
  | 0x0A#8 => .ok (.ldVxK (fieldX w))
  | 0x15#8 => .ok (.ldDtVx (fieldX w))
  | 0x18#8 => .ok (.ldStVx (fieldX w))
  | 0x1E#8 => .ok (.addIVx (fieldX w))
  | 0x29#8 => .ok (.ldFVx (fieldX w))
  | 0x33#8 => .ok (.ldBVx (fieldX w))
  | 0x55#8 => .ok (.ldMemVx (fieldX w))
  | 0x65#8 => .ok (.ldVxMem (fieldX w))
  | _ => .error (.undefinedOpcode w)

/-- The decoder (R105): dispatch on the top nibble, then on the family's secondary selector. The
last arm is there because Lean cannot see that sixteen nibbles are all; no word reaches it. -/
def decode (w : Word) : Except Reject Instr :=
  match fieldOp w with
  | 0x0#4 => decode0 w
  | 0x1#4 => .ok (.jp (fieldNnn w))
  | 0x2#4 => .ok (.call (fieldNnn w))
  | 0x3#4 => .ok (.seImm (fieldX w) (fieldKk w))
  | 0x4#4 => .ok (.sneImm (fieldX w) (fieldKk w))
  | 0x5#4 => decode5 w
  | 0x6#4 => .ok (.ldImm (fieldX w) (fieldKk w))
  | 0x7#4 => .ok (.addImm (fieldX w) (fieldKk w))
  | 0x8#4 => decode8 w
  | 0x9#4 => decode9 w
  | 0xA#4 => .ok (.ldI (fieldNnn w))
  | 0xB#4 => .ok (.jpV0 (fieldNnn w))
  | 0xC#4 => .ok (.rnd (fieldX w) (fieldKk w))
  | 0xD#4 => .ok (.drw (fieldX w) (fieldY w) (fieldRows w))
  | 0xE#4 => decodeE w
  | 0xF#4 => decodeF w
  | _ => .error (.undefinedOpcode w)

/-! Byte order (R71): the first byte in memory is bits 15..8. -/

/-- The word two consecutive bytes make, big-endian. -/
def wordOf (hi lo : Byte) : Word := hi ++ lo
/-- The byte of a word at the lower address, bits 15..8. -/
def hiByte (w : Word) : Byte := w.extractLsb' 8 8
/-- The byte of a word at the higher address, bits 7..0. -/
def loByte (w : Word) : Byte := w.extractLsb' 0 8

/-- Decode the instruction at the head of a byte sequence and give back the rest: total on any
bytes, every rejection by name. -/
def decodeBytes : List Byte → Except Reject (Instr × List Byte)
  | hi :: lo :: rest => (decode (wordOf hi lo)).map fun i => (i, rest)
  | [_] => .error .truncated
  | [] => .error .truncated

/-- An instruction word from the opcode table's numbering: bit 0 is the least significant bit of
the first (and only) word, and every bit at `nbits` and above is 0. -/
def tableWord (nbits w : Nat) : Word := BitVec.ofNat 16 (w % 2 ^ nbits)

/-- What the decoder reads from the bytes of the table's word, laid out as memory holds them. -/
def decodeTableWord (nbits w : Nat) : Option Instr :=
  match decodeBytes [hiByte (tableWord nbits w), loByte (tableWord nbits w)] with
  | .ok (i, _) => some i
  | .error _ => none

/-! The encoder, from the format layouts of R102 and the opcode map of R113. -/

/-- Format NNN: `oooo nnnn nnnn nnnn`. -/
def wordNNN (op : BitVec 4) (nnn : Addr) : Word := op ++ nnn
/-- Format XKK: `oooo xxxx kkkk kkkk`. -/
def wordXKK (op : BitVec 4) (x : RegIx) (kk : Byte) : Word := op ++ BitVec.ofFin (w := 4) x ++ kk
/-- Formats XYS and XYN: `oooo xxxx yyyy ssss`. -/
def wordXYN (op : BitVec 4) (x y : RegIx) (n : BitVec 4) : Word :=
  op ++ BitVec.ofFin (w := 4) x ++ BitVec.ofFin (w := 4) y ++ n

/-- The word of an instruction. -/
def encode : Instr → Word
  | .cls => 0x00E0#16
  | .ret => 0x00EE#16
  | .sys nnn => wordNNN 0x0#4 nnn
  | .jp nnn => wordNNN 0x1#4 nnn
  | .call nnn => wordNNN 0x2#4 nnn
  | .seImm x kk => wordXKK 0x3#4 x kk
  | .sneImm x kk => wordXKK 0x4#4 x kk
  | .seReg x y => wordXYN 0x5#4 x y 0x0#4
  | .ldImm x kk => wordXKK 0x6#4 x kk
  | .addImm x kk => wordXKK 0x7#4 x kk
  | .ldReg x y => wordXYN 0x8#4 x y 0x0#4
  | .orReg x y => wordXYN 0x8#4 x y 0x1#4
  | .andReg x y => wordXYN 0x8#4 x y 0x2#4
  | .xorReg x y => wordXYN 0x8#4 x y 0x3#4
  | .addReg x y => wordXYN 0x8#4 x y 0x4#4
  | .sub x y => wordXYN 0x8#4 x y 0x5#4
  | .shr x y => wordXYN 0x8#4 x y 0x6#4
  | .subn x y => wordXYN 0x8#4 x y 0x7#4
  | .shl x y => wordXYN 0x8#4 x y 0xE#4
  | .sneReg x y => wordXYN 0x9#4 x y 0x0#4
  | .ldI nnn => wordNNN 0xA#4 nnn
  | .jpV0 nnn => wordNNN 0xB#4 nnn
  | .rnd x kk => wordXKK 0xC#4 x kk
  | .drw x y n => wordXYN 0xD#4 x y (BitVec.ofFin (w := 4) n)
  | .skp x => wordXKK 0xE#4 x 0x9E#8
  | .sknp x => wordXKK 0xE#4 x 0xA1#8
  | .ldVxDt x => wordXKK 0xF#4 x 0x07#8
  | .ldVxK x => wordXKK 0xF#4 x 0x0A#8
  | .ldDtVx x => wordXKK 0xF#4 x 0x15#8
  | .ldStVx x => wordXKK 0xF#4 x 0x18#8
  | .addIVx x => wordXKK 0xF#4 x 0x1E#8
  | .ldFVx x => wordXKK 0xF#4 x 0x29#8
  | .ldBVx x => wordXKK 0xF#4 x 0x33#8
  | .ldMemVx x => wordXKK 0xF#4 x 0x55#8
  | .ldVxMem x => wordXKK 0xF#4 x 0x65#8

/-- The bytes of an instruction in the order memory holds them. -/
def encodeBytes (i : Instr) : List Byte := [hiByte (encode i), loByte (encode i)]

end Sys2Proof
end

