-- ==== Sys2Proof/Config.lean ====
section
/-!
DEFINITION. Config.lean: what an implementation fixes (the OPEN parameters of spec/00_scope.md R8)
and the free values a step's inputs take when the driver has given none. The free value of the
state after a faulting step, `Config.faultResidue`, is a function on State and stands beside it in
Machine/State.lean.
-/

namespace Sys2Proof

/-- The OPEN parameter DRAW_VF_INIT (R8, R173, decision D15): what the collision accumulation of
Dxyn starts from. -/
inductive DrawVfInit where
  /-- it starts at 0 -/
  | clear
  /-- it starts at the prior VF -/
  | keep
  deriving DecidableEq, Repr, Inhabited

/-- The OPEN parameters of a core, fixed for its life. They are part of the state, so that a
statement about every state holds for every setting of them (log entries 6 and 7). -/
structure Params where
  /-- DRAW_VF_INIT (D15) -/
  drawVfInit : DrawVfInit
  /-- TIMER_COUNT_BLOCKED (D20): whether a step spent waiting for a key counts toward the timers' 12 -/
  timerCountBlocked : Bool
  deriving DecidableEq, Repr, Inhabited

/-- The inputs of one step (R141): the key snapshot `keys_in` and the random byte `r`. -/
structure StepInput where
  keys : Keys
  r : Byte
  deriving DecidableEq, Repr, Inhabited

/-- The spec's defaults of the OPEN parameters (R8). UNVERIFIED: the source fixes neither; that they
are part of the state is a DESIGN CHOICE (log entries 6 and 7). -/
def Config.defaults : Params := { drawVfInit := .clear, timerCountBlocked := true }

/-- The default of the OPEN parameter FONT (R362, decision D26), glyph d at 5 * d. PRESUMED: the
source names the table and lists no byte (log entry 8). -/
def Config.font : List Byte :=
  [0xF0, 0x90, 0x90, 0x90, 0xF0] ++ [0x20, 0x60, 0x20, 0x20, 0x70] ++
  [0xF0, 0x10, 0xF0, 0x80, 0xF0] ++ [0xF0, 0x10, 0xF0, 0x10, 0xF0] ++
  [0x90, 0x90, 0xF0, 0x10, 0x10] ++ [0xF0, 0x80, 0xF0, 0x10, 0xF0] ++
  [0xF0, 0x80, 0xF0, 0x90, 0xF0] ++ [0xF0, 0x10, 0x20, 0x40, 0x40] ++
  [0xF0, 0x90, 0xF0, 0x90, 0xF0] ++ [0xF0, 0x90, 0xF0, 0x10, 0xF0] ++
  [0xF0, 0x90, 0xF0, 0x90, 0x90] ++ [0xE0, 0x90, 0xE0, 0x90, 0xE0] ++
  [0xF0, 0x80, 0x80, 0x80, 0xF0] ++ [0xE0, 0x90, 0x90, 0x90, 0xE0] ++
  [0xF0, 0x80, 0xF0, 0x80, 0xF0] ++ [0xF0, 0x80, 0xF0, 0x80, 0x80]

/-- The key snapshot of the step numbered k, where the driver has given no input for it: a free
value (R141, log entry 4). -/
opaque Config.freeKeys : Nat → Keys

/-- The random byte of the step numbered k, where the driver has given no input for it: a free
draw under no law (R141, decision D27, log entry 4). -/
opaque Config.freeRand : Nat → Byte

end Sys2Proof
end

