-- ==== Sys2Proof/Machine/State.lean ====
section
/-!
DEFINITION. Machine/State.lean: the state of the core (spec/10_state.md, every field of R50 and
R30 to R47), the reasons a run can stop, and the state after reset (spec/70_reset_and_hazards.md
R363).
-/

namespace Sys2Proof.Machine

/-- Memory as (address, byte) pairs in one canonical form, `Memory.wf` in Ops.lean. -/
abbrev Memory := List Host.Cell

/-- The framebuffer `fb[px][py]`: 64 columns of 32 pixels, `true` meaning set (R42, D37). -/
abbrev Framebuffer := Vector (Vector Bool 32) 64

/-- The key-wait state (R45). -/
inductive Wait where
  | running
  /-- blocked until a key is pressed; `t` is the register that receives its index -/
  | awaitingKey (t : RegIx)
  deriving DecidableEq, Repr, Inhabited

/-- The fatal conditions, each with the info it records (spec/60_exceptions.md R320). -/
inductive Fatal where
  /-- code 1, raised by construction only (R328): the program's length -/
  | programSize (len : Nat)
  /-- code 2, raised in phase 5 of a step (R323): `pc` and the word -/
  | undefinedOpcode (pc : Word) (w : Word)
  /-- code 3, raised by 2nnn with SP = 16 (R324) -/
  | stackOverflow (pc : Word)
  /-- code 4, raised by 00EE with SP = 0 (R325) -/
  | stackUnderflow (pc : Word)
  /-- code 5, raised by an access above 0xFFF (R322): `pc` and the address -/
  | memoryOutOfRange (pc : Word) (addr : Nat)
  /-- code 6, raised by Ex9E and ExA1 with Vx > 15 (R326): `pc` and the index -/
  | keyIndexOutOfRange (pc : Word) (index : Byte)
  /-- code 7, raised by Fx1E when the sum exceeds 0xFFFF (R327): `pc` and the sum -/
  | iOverflow (pc : Word) (sum : Nat)
  deriving DecidableEq, Repr, Inhabited

/-- The PC directive a handler returns (R16). -/
inductive Directive where
  | next
  | skip
  | jump (t : Word)
  deriving DecidableEq, Repr

/-- Every piece of state the spec gives the core, then four fields of the model's own. -/
structure State where
  /-- V0..VF (R30, R31) -/
  v : Vector Byte 16
  /-- `I` (R37) -/
  ireg : Word
  /-- `pc` (R33) -/
  pc : Word
  /-- `SP`, the number of stack entries in use, 0..16 (R38) -/
  sp : Byte
  /-- `stack[0..15]` (R39) -/
  stack : Vector Word 16
  /-- `DT`, the delay timer (R40) -/
  dt : Byte
  /-- `ST`, the sound timer (R40) -/
  st : Byte
  /-- `cyc mod 12`, the step counter behind the timer cadence (R41) -/
  cyc : Fin 12
  /-- `fb[px][py]` (R42) -/
  fb : Framebuffer
  /-- `dirty`, the framebuffer's "changed since last step" flag (R43) -/
  dirty : Bool
  /-- `keys[0..15]`, the latest key snapshot (R44) -/
  keys : Keys
  /-- `wait` (R45) -/
  wait : Wait
  /-- `fault`, the fault latch (R46) -/
  fault : Option Fatal
  /-- `mem[0x000..0xFFF]` (R47, R70) -/
  mem : Memory
  /-- The model's own: the random byte `r` of the current step (R141), latched in phase 1 so that
  phase 6 can read it (log entry 5). -/
  rand : Byte
  /-- The model's own: the inputs the driver has ready for the coming steps, oldest first (R141,
  log entry 4). -/
  inputs : List StepInput
  /-- The model's own: the number of steps taken, which numbers the free inputs (log entry 4). -/
  stepNo : Nat
  /-- The OPEN parameters of this core (R8), written by no step (log entries 6 and 7). -/
  cfg : Params
  deriving DecidableEq, Repr, Inhabited

/-- What stops the model where the spec gives no effect. -/
inductive Fault where
  /-- Raised by 00EE and 2nnn in a state with SP above 16, outside the legal values 0..16 of R38,
  where `stack[SP - 1]` or `stack[SP]` is no entry. Safe: no run reaches such a state (log entry 10). -/
  | stackIndexOutOfRange
  deriving DecidableEq, Repr

/-- Instructions without a meaning. -/
inductive Refusal where
  /-- Raised by a refused arm of `exec` for an instruction not reached yet. Safe: the model stops. -/
  | notModelled (mnemonic : String)
  deriving DecidableEq, Repr

/-- What a step or a meaning answers. -/
abbrev Result := Host.Outcome State Fault Refusal

/-- The state after construction with nothing loaded (R363, R364): memory lists nothing, so that it
reads as the default font and zeros. -/
def State.reset : State where
  v := Vector.replicate 16 0
  ireg := 0
  pc := 0x200
  sp := 0
  stack := Vector.replicate 16 0
  dt := 0
  st := 0
  cyc := 0
  fb := Vector.replicate 64 (Vector.replicate 32 false)
  dirty := false
  keys := Vector.replicate 16 false
  wait := .running
  fault := none
  mem := []
  rand := 0
  inputs := []
  stepNo := 0
  cfg := Config.defaults

end Sys2Proof.Machine

namespace Sys2Proof

/-- What a faulting step leaves in every part of the state but the fault latch: a free value, which
may depend on the whole state the fault arose in (spec/60_exceptions.md R321, decision D5, log
entry 2). -/
opaque Config.faultResidue : Machine.State → Machine.State

end Sys2Proof
end

