-- ==== Sys2Proof/Machine/Flags.lean ====
section
/-!
DEFINITION. Machine/Flags.lean: every value an instruction writes to VF as a flag (spec/43_alu.md
R227, spec/41_display.md R173).
-/

namespace Sys2Proof.Machine

/-- A flag as the byte VF takes, 1 or 0. -/
def flagByte (c : Bool) : Byte := if c then 1 else 0

/-- The 9-bit sum of 8xy4 (R230). -/
def sum9 (a b : Byte) : BitVec 9 := a.setWidth 9 + b.setWidth 9

/-- The carry of 8xy4, bit 8 of the sum (R230). -/
def carryFlag (a b : Byte) : Byte := flagByte ((sum9 a b).getLsbD 8)

/-- The flag of a subtraction: 1 exactly when the minuend is strictly greater (R227). -/
def greaterFlag (minuend subtrahend : Byte) : Byte := flagByte (decide (subtrahend < minuend))

/-- The bit 8xy6 shifts out, `a AND 1` (R232). -/
def lowBitFlag (a : Byte) : Byte := a &&& 1

/-- The bit 8xyE shifts out, `a >> 7` (R234). -/
def highBitFlag (a : Byte) : Byte := a >>> 7

/-- `f OR c` of Dxyn, where `f` is 0 or the prior VF as DRAW_VF_INIT says (R171, R173). -/
def collisionFlag (p : Params) (prior : Byte) (c : Bool) : Byte :=
  match p.drawVfInit with
  | .clear => flagByte c
  | .keep => prior ||| flagByte c

end Sys2Proof.Machine
end

