-- ==== Sys2Proof/Machine/Ops.lean ====
section
/-!
DEFINITION. Machine/Ops.lean: the named operations over registers, stack, memory and framebuffer,
the PC directive, and the entry into a fatal condition (spec/00_scope.md R13 to R16).
-/

namespace Sys2Proof.Machine

/-! Registers (R30, R31): V0..VF have one home; VF is V[15]. -/

/-- `V[x]`. -/
def State.reg (s : State) (x : RegIx) : Byte := s.v.get x

/-- `V[x] <- b`. -/
def State.setReg (s : State) (x : RegIx) (b : Byte) : State :=
  { s with v := s.v.set x.val b x.isLt }

/-- `V[15]`, the flag register (R31). -/
def State.vf (s : State) : Byte := s.reg 15

/-- `V[15] <- b`. -/
def State.setVf (s : State) (b : Byte) : State := s.setReg 15 b

/-- V0..Vx, x + 1 bytes (R264). -/
def State.regsUpTo (s : State) (x : RegIx) : List Byte := s.v.toList.take (x.val + 1)

/-- V0, V1, ... take the bytes of a list, one each; the registers above are unchanged (R265). -/
def State.loadRegs (s : State) (bs : List Byte) : State :=
  { s with v := Vector.ofFn fun j : Fin 16 => bs.getD j.val (s.reg j) }

/-- `I <- w` (R37). -/
def State.setIreg (s : State) (w : Word) : State := { s with ireg := w }
/-- `DT <- b` (R40). -/
def State.setDt (s : State) (b : Byte) : State := { s with dt := b }
/-- `ST <- b` (R40). -/
def State.setSt (s : State) (b : Byte) : State := { s with st := b }
/-- `wait <- w` (R45). -/
def State.setWait (s : State) (w : Wait) : State := { s with wait := w }
/-- The memory replaced. -/
def State.setMem (s : State) (m : Memory) : State := { s with mem := m }
/-- The framebuffer replaced and marked changed (R43, R170, R171). -/
def State.setFb (s : State) (f : Framebuffer) : State := { s with fb := f, dirty := true }

/-! The PC directive (R16, R150). -/

/-- `pc + 2` for NEXT, `pc + 4` for SKIP, the target for JUMP. -/
def State.apply (s : State) : Directive → State
  | .next => { s with pc := s.pc + 2 }
  | .skip => { s with pc := s.pc + 4 }
  | .jump t => { s with pc := t }

/-- SKIP when the condition holds, NEXT otherwise. -/
def Directive.skipIf (c : Bool) : Directive := if c then .skip else .next

/-! Memory (spec/20_memory.md). -/

/-- What an address no write has touched reads as: the reset contents (R79, R363), the default font
at 0x000..0x04F and 0 elsewhere (log entries 8 and 9). -/
def Memory.init (a : Nat) : Byte := Config.font.getD a 0

/-- The byte at an address. -/
def Memory.get : Memory → Nat → Byte
  | [], a => Memory.init a
  | (b, w) :: m, a => if a = b then w else Memory.get m a

/-- The byte at an address replaced, in canonical form: a byte equal to what an unlisted address
reads as is not listed. -/
def Memory.set : Memory → Nat → Byte → Memory
  | [], a, x => if x = Memory.init a then [] else [(a, x)]
  | (b, w) :: m, a, x =>
    if a < b then (if x = Memory.init a then (b, w) :: m else (a, x) :: (b, w) :: m)
    else if a = b then (if x = Memory.init a then m else (a, x) :: m)
    else (b, w) :: Memory.set m a x

/-- Consecutive bytes replaced, the first at `a`. -/
def Memory.setList : Memory → Nat → List Byte → Memory
  | m, _, [] => m
  | m, a, x :: xs => Memory.setList (Memory.set m a x) (a + 1) xs

/-- The canonical form: addresses strictly rising and inside the address space (R70), no entry equal
to what an unlisted address reads as. -/
abbrev Memory.wf (m : Memory) : Prop :=
  m.Pairwise (fun c d => c.1 < d.1) ∧ ∀ c ∈ m, c.1 ≤ 0xFFF ∧ c.2 ≠ Memory.init c.1

/-- The canonical memory that reads as the given one at every address of the address space.
Irreducible, so that no proof unfolds a list of 4096 cells; `Memory.canon_wf` and `Memory.get_canon`
say what it is. -/
@[irreducible] def Memory.canon (m : Memory) : Memory :=
  (List.range 0x1000).filterMap fun a =>
    if Memory.get m a = Memory.init a then none else some (a, Memory.get m a)

/-! Fatal conditions (spec/60_exceptions.md R320, R321). -/

/-- The code of a fatal condition (R320). -/
def Fatal.code : Fatal → Nat
  | .programSize _ => 1
  | .undefinedOpcode _ _ => 2
  | .stackOverflow _ => 3
  | .stackUnderflow _ => 4
  | .memoryOutOfRange _ _ => 5
  | .keyIndexOutOfRange _ _ => 6
  | .iOverflow _ _ => 7

/-- FATAL ENTRY (R321), the one operation every `raise` goes through: the latch takes the condition,
no directive is applied, and every other part of the state is a free value, put into the model's
canonical form (log entries 1, 2, 3). The parameters and the model's own input bookkeeping are no
part of that. Nothing returns from it (R332). -/
def raise (f : Fatal) (s : State) : State :=
  { Config.faultResidue s with
    mem := Memory.canon (Config.faultResidue s).mem
    fault := some f
    inputs := s.inputs
    stepNo := s.stepNo
    cfg := s.cfg }

/-- Why the statements of a handler end early: a `raise`, or the model's own fault. -/
inductive Stop where
  | fatal (f : Fatal)
  | fault (r : Fault)
  deriving DecidableEq, Repr

/-- What a handler's statements compute, unless they stop. -/
abbrev Run (α : Type) := Except Stop α

/-- The answer of a handler that started in `s`. -/
def finish (s : State) : Run State → Result
  | .ok t => .next t
  | .error (.fatal f) => .next (raise f s)
  | .error (.fault r) => .fault r

/-- `MemRead(a, 1)` (R14, R76). -/
def State.load (s : State) (a : Nat) : Run Byte :=
  if a ≤ 0xFFF then .ok (s.mem.get a) else .error (.fatal (.memoryOutOfRange s.pc a))

/-- `MemWrite(a, 1, b)` (R14, R76). -/
def State.store (s : State) (a : Nat) (b : Byte) : Run State :=
  if a ≤ 0xFFF then .ok (s.setMem (s.mem.set a b)) else .error (.fatal (.memoryOutOfRange s.pc a))

/-- `n` bytes from `a` on, in rising order (R75). -/
def State.loadList (s : State) (a : Nat) : Nat → Run (List Byte)
  | 0 => .ok []
  | n + 1 =>
    match s.load a with
    | .error e => .error e
    | .ok b =>
      match s.loadList (a + 1) n with
      | .error e => .error e
      | .ok bs => .ok (b :: bs)

/-- The bytes of a list stored from `a` on, in rising order (R75). -/
def State.storeList (s : State) (a : Nat) : List Byte → Run State
  | [] => .ok s
  | b :: bs =>
    match s.store a b with
    | .error e => .error e
    | .ok t => t.storeList (a + 1) bs

/-! The call stack (spec/42_flow.md R190, R191). -/

/-- `Push(v)` (R190). -/
def State.push (s : State) (w : Word) : Run State :=
  if h : s.sp.toNat < 16 then .ok { s with stack := s.stack.set s.sp.toNat w h, sp := s.sp + 1 }
  else if s.sp = 16 then .error (.fatal (.stackOverflow s.pc))
  else .error (.fault .stackIndexOutOfRange)

/-- `Pop()` (R191): the popped value, and the state with SP one less; the entry keeps its value. -/
def State.pop (s : State) : Run (Word × State) :=
  if s.sp = 0 then .error (.fatal (.stackUnderflow s.pc))
  else if h : s.sp.toNat - 1 < 16 then .ok (s.stack[s.sp.toNat - 1], { s with sp := s.sp - 1 })
  else .error (.fault .stackIndexOutOfRange)

/-! Keys (R15, R44, R146). -/

/-- `Key(k)` (R15): the state of the key a register value names. -/
def State.key (s : State) (k : Byte) : Run Bool :=
  if h : k.toNat < 16 then .ok (s.keys.get ⟨k.toNat, h⟩)
  else .error (.fatal (.keyIndexOutOfRange s.pc k))

/-- The lowest pressed key of a snapshot (R146). -/
def lowestKey (k : Keys) : Option RegIx := (List.finRange 16).find? fun j => k.get j

/-! The framebuffer (spec/41_display.md R171, R172). -/

/-- `fb[px][py]`. -/
def Framebuffer.at (f : Framebuffer) (px : Fin 64) (py : Fin 32) : Bool := (f.get px).get py

/-- A framebuffer with every pixel 0 (R170). -/
def Framebuffer.blank : Framebuffer := Vector.replicate 64 (Vector.replicate 32 false)

/-- `fb[px][py] <- fb[px][py] XOR p` (R171). -/
def Framebuffer.xorAt (f : Framebuffer) (px : Fin 64) (py : Fin 32) (p : Bool) : Framebuffer :=
  f.set px.val ((f.get px).set py.val ((f.at px py) ^^ p) py.isLt) px.isLt

/-- `(X0 + col) mod 64` (R172). -/
def wrapX (x0 : Byte) (col : Nat) : Fin 64 := Fin.ofNat 64 (x0.toNat + col)
/-- `(Y0 + row) mod 32` (R172). -/
def wrapY (y0 : Byte) (row : Nat) : Fin 32 := Fin.ofNat 32 (y0.toNat + row)
/-- `b[7 - col]`, so that bit 7 is the leftmost pixel (R172). -/
def spriteBit (b : Byte) (col : Nat) : Bool := b.getLsbD (7 - col)

/-- The columns of a sprite row, in the order the loop of R171 visits them. -/
def spriteCols : List Nat := [0, 1, 2, 3, 4, 5, 6, 7]

/-- The inner loop of R171 over the given columns of one sprite row: the framebuffer, and the
collision accumulator `c`. -/
def drawCols (x0 : Byte) (py : Fin 32) (b : Byte) : List Nat → Framebuffer × Bool → Framebuffer × Bool
  | [], fc => fc
  | col :: cols, (f, c) =>
    drawCols x0 py b cols
      (f.xorAt (wrapX x0 col) py (spriteBit b col),
        c || (spriteBit b col && f.at (wrapX x0 col) py))

/-- The outer loop of R171: the rows of a sprite, the first of them numbered `row`. -/
def drawRows (x0 y0 : Byte) (row : Nat) : List Byte → Framebuffer × Bool → Framebuffer × Bool
  | [], fc => fc
  | b :: bs, fc => drawRows x0 y0 (row + 1) bs (drawCols x0 (wrapY y0 row) b spriteCols fc)

end Sys2Proof.Machine
end

