-- ==== Sys2Proof/Machine/Operands.lean ====
section
/-!
DEFINITION. Machine/Operands.lean: the operand forms. Data is addressed only through `I` plus a
small offset (spec/44_index_memory.md R266); targets and immediates are zero-extended (spec/30_encoding.md
R103).
-/

namespace Sys2Proof.Machine

/-- Byte k of an access through `I`: `I + k` as an unbounded natural (R266). -/
def State.ea (s : State) (k : Nat) : Nat := s.ireg.toNat + k

/-- `zext_16(nnn)` (R103). -/
def zextAddr (nnn : Addr) : Word := nnn.setWidth 16

/-- `zext_16` of a byte (R103). -/
def zextByte (b : Byte) : Word := b.setWidth 16

/-- The target of Bnnn: `zext_16(nnn) + zext_16(V[0])`, not masked (R200). -/
def State.offsetTarget (s : State) (nnn : Addr) : Word := zextAddr nnn + zextByte (s.reg 0)

/-- The address after the instruction, which 2nnn pushes (R195). -/
def State.returnAddr (s : State) : Word := s.pc + 2

/-- The glyph address of Fx29: `zext_16(V[x]) * 5`, the whole byte (R262). -/
def glyphAddr (b : Byte) : Word := zextByte b * 5

/-- The hundreds, tens and ones digits of a byte, as Fx33 stores them (R263). -/
def decimalDigits (b : Byte) : List Byte :=
  [BitVec.ofNat 8 (b.toNat / 100), BitVec.ofNat 8 (b.toNat / 10 % 10), BitVec.ofNat 8 (b.toNat % 10)]

/-- `I + V[x]` for Fx1E, which must fit in 16 bits (R261). -/
def State.indexSum (s : State) (x : RegIx) : Run Word :=
  if s.ireg.toNat + (s.reg x).toNat ≤ 0xFFFF then .ok (s.ireg + zextByte (s.reg x))
  else .error (.fatal (.iOverflow s.pc (s.ireg.toNat + (s.reg x).toNat)))

end Sys2Proof.Machine
end

