-- ==== Sys2Proof/Machine/Alu.lean ====
section
/-!
DEFINITION. Machine/Alu.lean: the register and arithmetic family (spec/43_alu.md). The two
assignments of 8xy4 to 8xyE run in the order the spec writes them, the second reading the registers
as the first left them (R13, R230 to R234, log entry 16).
-/

namespace Sys2Proof.Machine

/-- 6xkk (R220). -/
def execLdImm (x : RegIx) (kk : Byte) (s : State) : Result :=
  .next ((s.setReg x kk).apply .next)

/-- 7xkk (R221): modulo 256, no flag. -/
def execAddImm (x : RegIx) (kk : Byte) (s : State) : Result :=
  .next ((s.setReg x (s.reg x + kk)).apply .next)

/-- 8xy0 (R222). -/
def execLdReg (x y : RegIx) (s : State) : Result :=
  .next ((s.setReg x (s.reg y)).apply .next)

/-- 8xy1 (R223). -/
def execOr (x y : RegIx) (s : State) : Result :=
  .next ((s.setReg x (s.reg x ||| s.reg y)).apply .next)

/-- 8xy2 (R224). -/
def execAnd (x y : RegIx) (s : State) : Result :=
  .next ((s.setReg x (s.reg x &&& s.reg y)).apply .next)

/-- 8xy3 (R225). -/
def execXor (x y : RegIx) (s : State) : Result :=
  .next ((s.setReg x (s.reg x ^^^ s.reg y)).apply .next)

/-- 8xy4 (R230): the sum is taken before any write; `V[x] <- s[7:0]; V[15] <- zext_8(s[8])`. -/
def execAddReg (x y : RegIx) (s : State) : Result :=
  .next (((s.setReg x ((sum9 (s.reg x) (s.reg y)).setWidth 8)).setVf
    (carryFlag (s.reg x) (s.reg y))).apply .next)

/-- 8xy5 (R231): `V[15] <- (V[x] > V[y]); V[x] <- V[x] - V[y]`. -/
def execSub (x y : RegIx) (s : State) : Result :=
  let t := s.setVf (greaterFlag (s.reg x) (s.reg y))
  .next ((t.setReg x (t.reg x - t.reg y)).apply .next)

/-- 8xy6 (R232): `V[15] <- V[x] AND 1; V[x] <- V[x] >> 1`; Vy is not read. -/
def execShr (x _y : RegIx) (s : State) : Result :=
  let t := s.setVf (lowBitFlag (s.reg x))
  .next ((t.setReg x (t.reg x >>> 1)).apply .next)

/-- 8xy7 (R233): `V[15] <- (V[y] > V[x]); V[x] <- V[y] - V[x]`. -/
def execSubn (x y : RegIx) (s : State) : Result :=
  let t := s.setVf (greaterFlag (s.reg y) (s.reg x))
  .next ((t.setReg x (t.reg y - t.reg x)).apply .next)

/-- 8xyE (R234): `V[15] <- V[x] >> 7; V[x] <- V[x] << 1`; Vy is not read. -/
def execShl (x _y : RegIx) (s : State) : Result :=
  let t := s.setVf (highBitFlag (s.reg x))
  .next ((t.setReg x (t.reg x <<< 1)).apply .next)

/-- Cxkk (R235): the step's random byte masked by kk. -/
def execRnd (x : RegIx) (kk : Byte) (s : State) : Result :=
  .next ((s.setReg x (s.rand &&& kk)).apply .next)

end Sys2Proof.Machine
end

