-- ==== Sys2Proof/Machine/Display.lean ====
section
/-!
DEFINITION. Machine/Display.lean: the display family (spec/41_display.md).
-/

namespace Sys2Proof.Machine

/-- 00E0 (R170). -/
def execCls (s : State) : Result :=
  .next ((s.setFb Framebuffer.blank).apply .next)

/-- Dxyn (R171 to R177): the coordinates, `I` and VF are read before VF is written (R174); the row
bytes are read first, which changes nothing, since a step whose read faults leaves no other state
(R321) and drawing writes no memory. -/
def execDrw (x y : RegIx) (n : Rows) (s : State) : Result :=
  finish s ((s.loadList (s.ea 0) n.val).map fun rows =>
    let drawn := drawRows (s.reg x) (s.reg y) 0 rows (s.fb, false)
    ((s.setFb drawn.1).setVf (collisionFlag s.cfg s.vf drawn.2)).apply .next)

end Sys2Proof.Machine
end

