-- ==== Sys2Proof/Machine/Flow.lean ====
section
/-!
DEFINITION. Machine/Flow.lean: the control-flow family (spec/42_flow.md).
-/

namespace Sys2Proof.Machine

/-- 00EE (R192): `t <- Pop(); JUMP(t)`. -/
def execRet (s : State) : Result :=
  finish s (s.pop.map fun p => p.2.apply (.jump p.1))

/-- 0nnn (R193): a no-op; the address is not used. -/
def execSys (_nnn : Addr) (s : State) : Result :=
  .next (s.apply .next)

/-- 1nnn (R194). -/
def execJp (nnn : Addr) (s : State) : Result :=
  .next (s.apply (.jump (zextAddr nnn)))

/-- 2nnn (R195): `Push(pc + 2); JUMP(zext_16(nnn))`. -/
def execCall (nnn : Addr) (s : State) : Result :=
  finish s ((s.push s.returnAddr).map fun t => t.apply (.jump (zextAddr nnn)))

/-- 3xkk (R196). -/
def execSeImm (x : RegIx) (kk : Byte) (s : State) : Result :=
  .next (s.apply (.skipIf (s.reg x == kk)))

/-- 4xkk (R197). -/
def execSneImm (x : RegIx) (kk : Byte) (s : State) : Result :=
  .next (s.apply (.skipIf (s.reg x != kk)))

/-- 5xy0 (R198). -/
def execSeReg (x y : RegIx) (s : State) : Result :=
  .next (s.apply (.skipIf (s.reg x == s.reg y)))

/-- 9xy0 (R199). -/
def execSneReg (x y : RegIx) (s : State) : Result :=
  .next (s.apply (.skipIf (s.reg x != s.reg y)))

/-- Bnnn (R200): the sum is not reduced to 12 bits. -/
def execJpV0 (nnn : Addr) (s : State) : Result :=
  .next (s.apply (.jump (s.offsetTarget nnn)))

end Sys2Proof.Machine
end

