-- ==== Sys2Proof/Machine/IndexMemory.lean ====
section
/-!
DEFINITION. Machine/IndexMemory.lean: the index register and memory family (spec/44_index_memory.md).
-/

namespace Sys2Proof.Machine

/-- Annn (R260). -/
def execLdI (nnn : Addr) (s : State) : Result :=
  .next ((s.setIreg (zextAddr nnn)).apply .next)

/-- Fx1E (R261): fatal when the sum exceeds 0xFFFF, VF not written. -/
def execAddIVx (x : RegIx) (s : State) : Result :=
  finish s ((s.indexSum x).map fun w => (s.setIreg w).apply .next)

/-- Fx29 (R262): Vx is not masked. -/
def execLdFVx (x : RegIx) (s : State) : Result :=
  .next ((s.setIreg (glyphAddr (s.reg x))).apply .next)

/-- Fx33 (R263). -/
def execLdBVx (x : RegIx) (s : State) : Result :=
  finish s ((s.storeList (s.ea 0) (decimalDigits (s.reg x))).map fun t => t.apply .next)

/-- Fx55 (R264): V0..Vx, `I` unchanged. -/
def execLdMemVx (x : RegIx) (s : State) : Result :=
  finish s ((s.storeList (s.ea 0) (s.regsUpTo x)).map fun t => t.apply .next)

/-- Fx65 (R265): V0..Vx, `I` unchanged. -/
def execLdVxMem (x : RegIx) (s : State) : Result :=
  finish s ((s.loadList (s.ea 0) (x.val + 1)).map fun bs => (s.loadRegs bs).apply .next)

end Sys2Proof.Machine
end

