-- ==== Sys2Proof/Machine/KeysTimers.lean ====
section
/-!
DEFINITION. Machine/KeysTimers.lean: the key and timer family (spec/45_keys_timers.md).
-/

namespace Sys2Proof.Machine

/-- Ex9E (R290). -/
def execSkp (x : RegIx) (s : State) : Result :=
  finish s ((s.key (s.reg x)).map fun down => s.apply (.skipIf down))

/-- ExA1 (R291). -/
def execSknp (x : RegIx) (s : State) : Result :=
  finish s ((s.key (s.reg x)).map fun down => s.apply (.skipIf (!down)))

/-- Fx07 (R292): the value after this step's tick. -/
def execLdVxDt (x : RegIx) (s : State) : Result :=
  .next ((s.setReg x s.dt).apply .next)

/-- Fx0A (R293): Vx is written by the step that resolves the wait (R146), not by this one. -/
def execLdVxK (x : RegIx) (s : State) : Result :=
  .next ((s.setWait (.awaitingKey x)).apply .next)

/-- Fx15 (R294). -/
def execLdDtVx (x : RegIx) (s : State) : Result :=
  .next ((s.setDt (s.reg x)).apply .next)

/-- Fx18 (R295). -/
def execLdStVx (x : RegIx) (s : State) : Result :=
  .next ((s.setSt (s.reg x)).apply .next)

end Sys2Proof.Machine
end

