-- ==== Sys2Proof/Machine/Engine.lean ====
section
/-!
DEFINITION. Machine/Engine.lean: the six phases of a step (spec/40_step_engine.md R144 to R150), and
the placing of one instruction where the next step fetches it.
-/

namespace Sys2Proof.Machine

/-- The inputs of the next step (R141): the oldest the driver has given, or free values where it has
given none (log entry 4). -/
def State.nextInput (s : State) : StepInput :=
  match s.inputs with
  | inp :: _ => inp
  | [] => { keys := Config.freeKeys s.stepNo, r := Config.freeRand s.stepNo }

/-- Whether the step about to run counts toward the timer cadence (R145): every step under
TIMER_COUNT_BLOCKED, else only a step with `wait = Running`. -/
def State.counted (s : State) : Bool := s.cfg.timerCountBlocked || decide (s.wait = .running)

/-- Phase 1, latch (R145): `keys <- keys_in; dirty <- 0`, and the step counter advances; the random
byte is latched beside the keys, and the inputs are used up. -/
def State.latch (s : State) : State :=
  { s with
    keys := s.nextInput.keys
    rand := s.nextInput.r
    dirty := false
    cyc := if s.counted then s.cyc + 1 else s.cyc
    inputs := s.inputs.tail
    stepNo := s.stepNo + 1 }

/-- Phase 2, key-wait resolution (R146): the lowest pressed key's index goes to the target register
and the core runs again; with no key pressed nothing changes. -/
def State.resolveWait (s : State) (t : RegIx) : State :=
  match lowestKey s.keys with
  | some k => (s.setReg t (BitVec.ofNat 8 k.val)).setWait .running
  | none => s

/-- `if T > 0 then T <- T - 1` (R338). -/
def countDown (t : Byte) : Byte := if 0 < t then t - 1 else t

/-- Phase 3, timer tick (R147, R338): both timers count down when `cyc mod 12 = 0`. -/
def State.tick (s : State) : State :=
  if s.cyc = 0 then { s with dt := countDown s.dt, st := countDown s.st } else s

/-- Phase 4, fetch (R148, R71): the big-endian word at `pc`, or the first address out of range. -/
def State.fetch (s : State) : Run Word :=
  match s.load s.pc.toNat with
  | .error e => .error e
  | .ok hi =>
    match s.load (s.pc.toNat + 1) with
    | .error e => .error e
    | .ok lo => .ok (wordOf hi lo)

/-- Phase 5, decode (R149). -/
def State.decodeAt (s : State) (w : Word) : Run Instr :=
  match decode w with
  | .ok i => .ok i
  | .error _ => .error (.fatal (.undefinedOpcode s.pc w))

/-- Phases 4 to 6 on a state that phases 1 to 3 have left. -/
def State.runInstr (s : State) : Result :=
  match s.fetch with
  | .error e => finish s (.error e)
  | .ok w =>
    match s.decodeAt w with
    | .error e => finish s (.error e)
    | .ok i => exec i s

/-- The whole step: a faulted core changes nothing (R144); phase 1; a waiting core ends the step with
phase 2; a running one goes through phases 3 to 6. -/
def State.cycle (s : State) : Result :=
  match s.fault with
  | some _ => .next s
  | none =>
    match s.wait with
    | .awaitingKey t => .next (s.latch.resolveWait t)
    | .running => s.latch.tick.runInstr

/-- Where an instruction is placed for the next step to fetch: at `pc`, or at the program base
where `pc` is no address a fetch succeeds from (R148). -/
def State.placePc (s : State) : Word := if s.pc.toNat ≤ 0xFFE then s.pc else 0x200

/-- The state with a word stored where the next step fetches, and everything the fetch needs: no
fault, no key wait, a `pc` that can be fetched from (log entry 23). -/
def State.placeWord (s : State) (w : Word) : State :=
  { s with
    pc := s.placePc
    wait := .running
    fault := none
    mem := s.mem.setList s.placePc.toNat [hiByte w, loByte w] }

end Sys2Proof.Machine
end

