-- ==== Sys2Proof/Machine/Step.lean ====
section
/-!
DEFINITION. Machine/Step.lean: one step of the core, and the host's placing of an instruction; both
only call Machine/Engine.lean.
-/

namespace Sys2Proof.Machine

/-- One `step` call (spec/40_step_engine.md R143). -/
def step (s : State) : Host.Outcome State Fault Refusal := s.cycle

/-- `s` with the instruction of the opcode table's word stored where `step` fetches next. -/
def State.withFetchWord (s : State) (nbits w : Nat) : State := s.placeWord (tableWord nbits w)

end Sys2Proof.Machine
end

