-- ==== Sys2Proof/Machine/Construct.lean ====
section
/-!
DEFINITION. Machine/Construct.lean: construction, the core's only reset (spec/70_reset_and_hazards.md
R360 to R365).
-/

namespace Sys2Proof.Machine

/-- The number of bytes of the program region, 4096 - 512 (R361). -/
def programMax : Nat := 3584

/-- The address the program is loaded at (R80, R360). -/
def programBase : Nat := 0x200

/-- `new(program_bytes)` for the given parameters and font (R360, R361): the size check, then zeroed
memory with the font at 0x000 and the program at 0x200, every other field at its reset value. -/
def construct (cfg : Params) (font : Vector Byte 80) (program : List Byte) : Except Fatal State :=
  if 1 ≤ program.length ∧ program.length ≤ programMax then
    .ok { State.reset with
      cfg := cfg
      mem := (Memory.setList [] 0 font.toList).setList programBase program }
  else .error (.programSize program.length)

end Sys2Proof.Machine
end

