-- ==== Sys2Proof/Safety.lean ====
section
/-!
DEFINITION. Safety.lean: the terms statements use: faulted and finished states (spec/70_reset_and_hazards.md
R372), the pieces of state and what it is to change only some of them, what each instruction writes
and reads (spec/10_state.md R51), and the invariant of the core.
-/

namespace Sys2Proof.Machine

/-! End predicates (R372). -/

/-- `faulted(s)`: the latch is set. -/
def State.faulted (s : State) : Bool := s.fault.isSome

/-- The instruction word at `pc`, where a fetch succeeds (R71). -/
def State.wordAtPc (s : State) : Word := wordOf (s.mem.get s.pc.toNat) (s.mem.get (s.pc.toNat + 1))

/-- `finished(s)`: no fault, no wait, and a jump to itself at `pc`. -/
def State.finished (s : State) : Prop :=
  s.fault = none ∧ s.wait = .running ∧ s.pc.toNat ≤ 0xFFE ∧ s.wordAtPc = 0x1000 + s.pc

/-- The next step of `s` runs the instruction `i`: no fault, no wait, and the word at a `pc` that can
be fetched from decodes to it. -/
structure State.AboutToRun (s : State) (i : Instr) : Prop where
  unfaulted : s.fault = none
  running : s.wait = .running
  fetchable : s.pc.toNat ≤ 0xFFE
  decodes : decode s.wordAtPc = .ok i

/-! Pieces of state. -/

/-- The pieces of state a statement can name. -/
inductive Piece where
  | reg (x : RegIx)
  | ireg
  | pc
  | sp
  | stack (j : Fin 16)
  | dt
  | st
  | cyc
  | fb
  | dirty
  | key (k : Fin 16)
  | wait
  | fault
  | mem (a : Nat)
  | rand
  | inputs
  | stepNo
  | drawVfInit
  | timerCountBlocked
  deriving DecidableEq, Repr

/-- Two states agree on a piece; memory byte by byte. -/
def Agree (p : Piece) (s t : State) : Prop :=
  match p with
  | .reg x => t.reg x = s.reg x
  | .ireg => t.ireg = s.ireg
  | .pc => t.pc = s.pc
  | .sp => t.sp = s.sp
  | .stack j => t.stack.get j = s.stack.get j
  | .dt => t.dt = s.dt
  | .st => t.st = s.st
  | .cyc => t.cyc = s.cyc
  | .fb => t.fb = s.fb
  | .dirty => t.dirty = s.dirty
  | .key k => t.keys.get k = s.keys.get k
  | .wait => t.wait = s.wait
  | .fault => t.fault = s.fault
  | .mem a => t.mem.get a = s.mem.get a
  | .rand => t.rand = s.rand
  | .inputs => t.inputs = s.inputs
  | .stepNo => t.stepNo = s.stepNo
  | .drawVfInit => t.cfg.drawVfInit = s.cfg.drawVfInit
  | .timerCountBlocked => t.cfg.timerCountBlocked = s.cfg.timerCountBlocked

/-- Going from `s` to `t`, every piece of state outside the list is unchanged, every byte of memory
outside it among them. -/
def ChangesOnly (ps : List Piece) (s t : State) : Prop := ∀ p, p ∉ ps → Agree p s t

/-- The general registers V0..Vx as pieces. -/
def regPieces (x : RegIx) : List Piece := (List.finRange 16).filterMap fun j => if j ≤ x then some (.reg j) else none

/-- The sixteen keys of the snapshot as pieces. -/
def keyPieces : List Piece := (List.finRange 16).map .key

/-- The n bytes of memory from `I` on as pieces, at the addresses an access through `I` uses (R266). -/
def State.memPieces (s : State) (n : Nat) : List Piece := (List.range n).map fun k => .mem (s.ea k)

/-- The "writes" column of the table of R51, `pc` apart, which every instruction writes. -/
def writes (i : Instr) (s : State) : List Piece :=
  match i with
  | .cls => [.fb, .dirty]
  | .ret => [.sp]
  | .sys _ => []
  | .jp _ => []
  | .call _ => if h : s.sp.toNat < 16 then [.stack ⟨s.sp.toNat, h⟩, .sp] else []
  | .seImm _ _ => []
  | .sneImm _ _ => []
  | .seReg _ _ => []
  | .ldImm x _ => [.reg x]
  | .addImm x _ => [.reg x]
  | .ldReg x _ => [.reg x]
  | .orReg x _ => [.reg x]
  | .andReg x _ => [.reg x]
  | .xorReg x _ => [.reg x]
  | .addReg x _ => [.reg x, .reg 15]
  | .sub x _ => [.reg 15, .reg x]
  | .shr x _ => [.reg 15, .reg x]
  | .subn x _ => [.reg 15, .reg x]
  | .shl x _ => [.reg 15, .reg x]
  | .sneReg _ _ => []
  | .ldI _ => [.ireg]
  | .jpV0 _ => []
  | .rnd x _ => [.reg x]
  | .drw _ _ _ => [.reg 15, .fb, .dirty]
  | .skp _ => []
  | .sknp _ => []
  | .ldVxDt x => [.reg x]
  | .ldVxK _ => [.wait]
  | .ldDtVx _ => [.dt]
  | .ldStVx _ => [.st]
  | .addIVx _ => [.ireg]
  | .ldFVx _ => [.ireg]
  | .ldBVx _ => s.memPieces 3
  | .ldMemVx x => s.memPieces (x.val + 1)
  | .ldVxMem x => regPieces x

/-- The one key a register value names, which Ex9E and ExA1 read (R15, R51); none where the value is no
key index. -/
def State.keyPiece (s : State) (x : RegIx) : List Piece :=
  if h : (s.reg x).toNat < 16 then [.key ⟨(s.reg x).toNat, h⟩] else []

/-- The "reads" column of the table of R51, with `pc` for every instruction whose directive is NEXT or
SKIP (R16; JUMP takes its target as it is), with the parameter DRAW_VF_INIT for Dxyn and VF where
that is `keep` (R171), and with the model's `rand` for the random input. -/
def reads (i : Instr) (s : State) : List Piece :=
  match i with
  | .cls => [.pc]
  | .ret => .sp :: (if h : s.sp.toNat - 1 < 16 then [.stack ⟨s.sp.toNat - 1, h⟩] else [])
  | .sys _ => [.pc]
  | .jp _ => []
  | .call _ => [.pc, .sp]
  | .seImm x _ => [.pc, .reg x]
  | .sneImm x _ => [.pc, .reg x]
  | .seReg x y => [.pc, .reg x, .reg y]
  | .ldImm _ _ => [.pc]
  | .addImm x _ => [.pc, .reg x]
  | .ldReg _ y => [.pc, .reg y]
  | .orReg x y => [.pc, .reg x, .reg y]
  | .andReg x y => [.pc, .reg x, .reg y]
  | .xorReg x y => [.pc, .reg x, .reg y]
  | .addReg x y => [.pc, .reg x, .reg y]
  | .sub x y => [.pc, .reg x, .reg y]
  | .shr x _ => [.pc, .reg x]
  | .subn x y => [.pc, .reg x, .reg y]
  | .shl x _ => [.pc, .reg x]
  | .sneReg x y => [.pc, .reg x, .reg y]
  | .ldI _ => [.pc]
  | .jpV0 _ => [.reg 0]
  | .rnd _ _ => [.pc, .rand]
  | .drw x y n => [.pc, .reg x, .reg y, .drawVfInit, .ireg, .fb] ++ s.memPieces n.val ++
    (if s.cfg.drawVfInit = .keep then [.reg 15] else [])
  | .skp x => .pc :: .reg x :: s.keyPiece x
  | .sknp x => .pc :: .reg x :: s.keyPiece x
  | .ldVxDt _ => [.pc, .dt]
  | .ldVxK _ => [.pc]
  | .ldDtVx x => [.pc, .reg x]
  | .ldStVx x => [.pc, .reg x]
  | .addIVx x => [.pc, .ireg, .reg x]
  | .ldFVx x => [.pc, .reg x]
  | .ldBVx x => [.pc, .reg x, .ireg]
  | .ldMemVx x => [.pc, .ireg] ++ regPieces x
  | .ldVxMem x => [.pc, .ireg] ++ s.memPieces (x.val + 1)

/-! The sprite of a Dxyn. -/

/-- A pixel is one of the target pixels of the n-row sprite at `I` drawn at (Vx, Vy), and the sprite's
bit for it is 1 (R172): row `row` is the byte at `I + row`, column `col` its bit `7 - col`, and the
target is ((Vx + col) mod 64, (Vy + row) mod 32). -/
def State.InSprite (s : State) (x y : RegIx) (n : Rows) (px : Fin 64) (py : Fin 32) : Prop :=
  ∃ row col : Nat, row < n.val ∧ col < 8 ∧ px.val = ((s.reg x).toNat + col) % 64 ∧
    py.val = ((s.reg y).toNat + row) % 32 ∧ (s.mem.get (s.ea row)).getLsbD (7 - col) = true

/-! The invariant of the core. -/

/-- What holds of every unfaulted core: SP counts 0 to 16 entries (R38), `pc` is at most 0x10FE and a
stack entry at most 0x1000 (R36). -/
structure State.Bounded (s : State) : Prop where
  sp_le : s.sp.toNat ≤ 16
  pc_le : s.pc.toNat ≤ 0x10FE
  stack_le : ∀ j : Fin 16, (s.stack.get j).toNat ≤ 0x1000

/-- The invariant: memory is in its canonical form, and an unfaulted core is within its bounds. Of a
faulted core no more is claimed (R321). -/
structure State.Inv (s : State) : Prop where
  mem_wf : s.mem.wf
  bounded : s.fault = none → s.Bounded

end Sys2Proof.Machine
end

