-- ==== Sys2Proof/Certificates/Slice0/Obligations.lean ====
section
/-!
DEFINITION. Certificates/Slice0/Obligations.lean: what is claimed of the core, from the numbered rules
of spec/. `ChangesOnly` is the frame of a statement: every piece of state it does not list is
unchanged, every byte of memory among them.
-/

open Sys2Proof Sys2Proof.Machine

/-! ## Encoding -/

/-- R102, R105, R113: decoding the word of a well-formed instruction gives it back, with every
operand at every value. -/
def Obligations.DecodeOfEncodeIsIdentity : Prop :=
  ∀ i : Instr, i.wellFormed = true → decode (encode i) = .ok i

/-- R105, R114: a word has at most one meaning and no bit of it is dropped: encoding what a word
decodes to gives the word back. -/
def Obligations.EncodeOfDecodeIsIdentity : Prop :=
  ∀ (w : Word) (i : Instr), decode w = .ok i → encode i = w ∧ i.wellFormed = true

/-- R101: the five fields of every word, as numbers. -/
def Obligations.FieldsOfEveryWord : Prop :=
  ∀ w : Word,
    (fieldOp w).toNat = w.toNat / 0x1000 ∧
    (fieldX w).val = w.toNat / 0x100 % 16 ∧
    (fieldY w).val = w.toNat / 0x10 % 16 ∧
    (fieldKk w).toNat = w.toNat % 0x100 ∧
    (fieldN w).toNat = w.toNat % 16 ∧
    (fieldRows w).val = w.toNat % 16 ∧
    (fieldNnn w).toNat = w.toNat % 0x1000

/-- R115 with R107 to R111 (families 5 and 9 by the spec's own decision D16, log entry 18): the
illegal words, family by family, and that every rejection of a word is that verdict. -/
def Obligations.UndefinedWordsByFamily : Prop :=
  ∀ w : Word,
    (decode w = .error (.undefinedOpcode w) ↔
      ((fieldOp w = 0x5#4 ∨ fieldOp w = 0x9#4) ∧ fieldN w ≠ 0x0#4) ∨
      (fieldOp w = 0x8#4 ∧ fieldN w ∈ [0x8#4, 0x9#4, 0xA#4, 0xB#4, 0xC#4, 0xD#4, 0xF#4]) ∨
      (fieldOp w = 0xE#4 ∧ fieldKk w ∉ [0x9E#8, 0xA1#8]) ∨
      (fieldOp w = 0xF#4 ∧
        fieldKk w ∉ [0x07#8, 0x0A#8, 0x15#8, 0x18#8, 0x1E#8, 0x29#8, 0x33#8, 0x55#8, 0x65#8])) ∧
    ∀ e, decode w = .error e → e = .undefinedOpcode w

/-- Words of spec/95_test_vectors.md 2.1 and the examples of the instruction rules. -/
def Obligations.SampleWordsDecode : Prop :=
  decode 0x00E0#16 = .ok .cls ∧ decode 0x00EE#16 = .ok .ret ∧
  decode 0x0000#16 = .ok (.sys 0x000#12) ∧ decode 0x01E0#16 = .ok (.sys 0x1E0#12) ∧
  decode 0x5120#16 = .ok (.seReg 1 2) ∧ decode 0x6A42#16 = .ok (.ldImm 10 0x42#8) ∧
  decode 0x800E#16 = .ok (.shl 0 0) ∧ decode 0xA2F0#16 = .ok (.ldI 0x2F0#12) ∧
  decode 0xD011#16 = .ok (.drw 0 1 1) ∧ decode 0xE09E#16 = .ok (.skp 0) ∧
  decode 0xFF65#16 = .ok (.ldVxMem 15) ∧
  decode 0x5001#16 = .error (.undefinedOpcode 0x5001#16) ∧
  decode 0x8008#16 = .error (.undefinedOpcode 0x8008#16)

/-! ## The step -/

/-- R150 with R145, R147: where no fault and no wait stand in the way and the word at `pc` decodes,
the step is that instruction run on the state phases 1 (`latch`) and 3 (`tick`) leave. -/
def Obligations.StepRunsTheDecodedInstruction : Prop :=
  ∀ (s : State) (i : Instr), s.AboutToRun i → step s = exec i s.latch.tick

/-- R145 (the count of steps by the spec's decision D20; the queue of inputs is the model's, log
entry 4): phase 1 takes the oldest given input, clears `dirty` and advances the step counter. -/
def Obligations.LatchPhaseEffect : Prop :=
  ∀ s : State,
    (∀ inp rest, s.inputs = inp :: rest →
      s.latch.keys = inp.keys ∧ s.latch.rand = inp.r ∧ s.latch.inputs = rest) ∧
    s.latch.dirty = false ∧
    ((s.cfg.timerCountBlocked = true ∨ s.wait = .running) →
      s.latch.cyc.val = (s.cyc.val + 1) % 12) ∧
    ((s.cfg.timerCountBlocked = false ∧ s.wait ≠ .running) → s.latch.cyc = s.cyc) ∧
    s.latch.stepNo = s.stepNo + 1 ∧
    ChangesOnly ([.rand, .dirty, .cyc, .inputs, .stepNo] ++ keyPieces) s s.latch

/-- R338: the tick takes 1 from each timer that is above 0, independently, and never goes below 0;
it happens only when `cyc mod 12 = 0` (R147) and changes nothing else. -/
def Obligations.TimerTickAction : Prop :=
  ∀ s : State,
    (s.cyc = 0 →
      (s.tick.dt.toNat = s.dt.toNat - 1 ∧ s.tick.st.toNat = s.st.toNat - 1)) ∧
    (s.cyc ≠ 0 → (s.tick.dt = s.dt ∧ s.tick.st = s.st)) ∧
    ChangesOnly [.dt, .st] s s.tick

/-- R363 (the zeros of DT, ST, dirty, keys and unwritten memory are the spec's decisions D24 and
D25, the font bytes its decision D26: log entries 8, 9, 22; the parameters the defaults of its open
decisions D15 and D20, held in the state: log entries 6, 7): every field of the spec's and both
parameters after construction with nothing loaded. -/
def Obligations.ResetValues : Prop :=
  State.reset.pc = 0x200#16 ∧ State.reset.ireg = 0#16 ∧ State.reset.sp = 0#8 ∧
  (∀ x : RegIx, State.reset.reg x = 0#8) ∧ (∀ j : Fin 16, State.reset.stack.get j = 0#16) ∧
  State.reset.dt = 0#8 ∧ State.reset.st = 0#8 ∧ State.reset.cyc = 0 ∧
  (∀ (px : Fin 64) (py : Fin 32), State.reset.fb.at px py = false) ∧ State.reset.dirty = false ∧
  (∀ k : Fin 16, State.reset.keys.get k = false) ∧
  State.reset.wait = .running ∧ State.reset.fault = none ∧
  State.reset.cfg.drawVfInit = .clear ∧ State.reset.cfg.timerCountBlocked = true ∧
  (∀ a : Nat, State.reset.mem.get a = if a < 80 then Config.font.getD a 0#8 else 0#8)

/-- R144 (the spec's decision D2, log entry 1): a faulted core never changes, however many steps it
is given. -/
def Obligations.FaultedCoreNeverChanges : Prop :=
  ∀ (n : Nat) (s : State), s.fault ≠ none → Host.Core.run core n s = .next s

/-- R149, R323 (the latch by the spec's decision D2, log entry 1): a word the decoder rejects raises
UndefinedOpcode with `pc` and the word. -/
def Obligations.IllegalWordFaults : Prop :=
  ∀ (s : State) (e : Reject), s.fault = none → s.wait = .running → s.pc.toNat ≤ 0xFFE →
    decode s.wordAtPc = .error e →
    ∃ t, step s = .next t ∧ t.fault = some (.undefinedOpcode s.pc s.wordAtPc)

/-- R146, R296, R297, R346 (no tick in a wait step by the spec's decision D21, log entry 21; the
count of steps by its decision D20, log entry 7; where the inputs come from is the model's, log
entries 4 and 5): every step of an unfaulted waiting core latches the new snapshot, clears `dirty`
and advances `cyc` modulo 12 under TIMER_COUNT_BLOCKED and leaves it otherwise; it gives the lowest
pressed key's index to the target register and runs again, or with no key pressed waits on;
everything else is unchanged, `pc`, timers, memory and framebuffer among it. -/
def Obligations.KeyWaitStep : Prop :=
  ∀ (s : State) (x : RegIx), s.fault = none → s.wait = .awaitingKey x →
    ∃ t, step s = .next t ∧
      t.keys = s.nextInput.keys ∧ t.rand = s.nextInput.r ∧ t.inputs = s.inputs.tail ∧
      t.stepNo = s.stepNo + 1 ∧ t.dirty = false ∧
      (s.cfg.timerCountBlocked = true → t.cyc.val = (s.cyc.val + 1) % 12) ∧
      (s.cfg.timerCountBlocked = false → t.cyc = s.cyc) ∧
      (∀ k : RegIx, s.nextInput.keys.get k = true → (∀ j < k, s.nextInput.keys.get j = false) →
        (t.reg x).toNat = k.val ∧ t.wait = .running ∧
        ChangesOnly ([.reg x, .wait, .rand, .dirty, .cyc, .inputs, .stepNo] ++ keyPieces) s t) ∧
      ((∀ k : RegIx, s.nextInput.keys.get k = false) →
        t.wait = .awaitingKey x ∧
        ChangesOnly ([.rand, .dirty, .cyc, .inputs, .stepNo] ++ keyPieces) s t)

/-- The invariant `State.Inv` (canonical memory; SP at most 16, `pc` at most 0x10FE, return
addresses at most 0x1000, R36 and R38) is kept by every step. -/
def Obligations.StepKeepsInvariant : Prop :=
  ∀ s t : State, s.Inv → step s = .next t → t.Inv

/-- The invariant holds after reset. -/
def Obligations.ResetMeetsInvariant : Prop := State.reset.Inv

/-- The model's own (log entries 1 and 10; the rules it rests on are R321, the entry into a fatal
condition, and R38, the values of SP): from every state within the invariant a step answers a next
state. A fatal condition is itself a next state (log entry 1, the spec's decision D2), and the one
stop of the model, at SP above 16 (log entry 10), is outside the invariant. -/
def Obligations.InvariantStatesAlwaysStep : Prop :=
  ∀ s : State, s.Inv → ∃ t, step s = .next t

/-- R8: no step changes the parameters of the core, a faulting one included (log entries 6, 7). -/
def Obligations.StepKeepsParameters : Prop :=
  ∀ s t : State, step s = .next t → t.cfg = s.cfg

/-- R43 (an inference of the spec's from R145, R170, R171): after an unfaulted step, `dirty` is 1
exactly when that step executed 00E0 or Dxyn. -/
def Obligations.DirtyExactlyAfterClearOrDraw : Prop :=
  ∀ s t : State, s.fault = none → step s = .next t → t.fault = none →
    (t.dirty = true ↔ (s.AboutToRun .cls ∨ ∃ x y n, s.AboutToRun (.drw x y n)))

/-- R45: `wait` starts `Running`, is set to `AwaitingKey(x)` only by Fx0A, and is returned to
`Running` only by the key-wait resolution. -/
def Obligations.WaitEnteredAndLeft : Prop :=
  State.reset.wait = .running ∧
  (∀ (s t : State) (x : RegIx), s.fault = none → s.wait = .running → step s = .next t →
    t.fault = none → t.wait = .awaitingKey x → s.AboutToRun (.ldVxK x)) ∧
  (∀ (s t : State) (x : RegIx), s.fault = none → s.wait = .awaitingKey x → step s = .next t →
    (t.wait = .awaitingKey x ∨
      (t.wait = .running ∧ ∃ k : RegIx, t.keys.get k = true ∧ (∀ j < k, t.keys.get j = false) ∧
        (t.reg x).toNat = k.val)))

/-- R340 (an inference of the spec's from R337 and R338, R147): starting from DT = 5, sixty steps
with no key wait and no Fx15 leave DT = 0, whatever the phase of `cyc`. -/
def Obligations.DelayTimerSixtySteps : Prop :=
  ∀ f : Nat → State,
    (∀ n < 60, (f n).fault = none ∧ (f n).wait = .running ∧ step (f n) = .next (f (n + 1)) ∧
      ∀ x, ¬ (f n).AboutToRun (.ldDtVx x)) →
    (f 60).fault = none → (f 0).dt = 5#8 → (f 60).dt = 0#8

/-- R372 (the spec's decision D29, log entry 28): from a finished state a step changes only keys,
dirty, `cyc` and the timers (and the model's own input bookkeeping), and the state stays finished.
-/
def Obligations.FinishedStaysFinished : Prop :=
  ∀ s : State, s.finished → ∃ t, step s = .next t ∧ t.finished ∧
    ChangesOnly ([.rand, .dirty, .cyc, .dt, .st, .inputs, .stepNo] ++ keyPieces) s t

/-- The host's placing of an instruction (log entry 23): where the table's word decodes, the next
step of the state it makes runs exactly that instruction. -/
def Obligations.PlacedWordIsRunNext : Prop :=
  ∀ (s : State) (nbits w : Nat) (i : Instr), s.mem.wf → decodeTableWord nbits w = some i →
    (s.withFetchWord nbits w).AboutToRun i

/-! ## Construction -/

/-- R361: construction succeeds exactly for 1 to 3584 program bytes, and otherwise fails with
ProgramSize and returns no machine; that 3584 bytes fill 0x200 to 0xFFF is an inference of the
spec's own, from 0x200 + 3584 = 0x1000. -/
def Obligations.ConstructionSizeCheck : Prop :=
  ∀ (cfg : Params) (font : Vector Byte 80) (program : List Byte),
    ((1 ≤ program.length ∧ program.length ≤ 3584) →
      ∃ s, construct cfg font program = .ok s ∧
        (program.length = 3584 → ∀ a, 0x200 ≤ a → a ≤ 0xFFF →
          s.mem.get a = program.getD (a - 0x200) 0#8)) ∧
    (¬(1 ≤ program.length ∧ program.length ≤ 3584) →
      construct cfg font program = .error (.programSize program.length))

/-- R360, R363 (zeros outside font and program by the spec's decision D24, log entry 9): what a
constructed core holds, for every font and every setting of the parameters. -/
def Obligations.ConstructedCore : Prop :=
  ∀ (cfg : Params) (font : Vector Byte 80) (program : List Byte) (s : State),
    construct cfg font program = .ok s →
    (∀ a : Fin 80, s.mem.get a.val = font.get a) ∧
    (∀ a, 80 ≤ a → a < 0x200 → s.mem.get a = 0#8) ∧
    (∀ k, k < program.length → s.mem.get (0x200 + k) = program.getD k 0#8) ∧
    (∀ a, 0x200 + program.length ≤ a → s.mem.get a = 0#8) ∧
    s.cfg = cfg ∧ s.Inv ∧
    ∀ p, p ≠ .drawVfInit → p ≠ .timerCountBlocked → (∀ a, p ≠ .mem a) → Agree p State.reset s

/-! ## Fatal conditions -/

/-- R321, R332 (the spec's decisions D2 and D5; log entries 1, 2, 3): a fatal condition sets the
latch, and every later step changes nothing. -/
def Obligations.FatalEntryIsFinal : Prop :=
  ∀ (f : Fatal) (s : State), (raise f s).fault = some f ∧ (raise f s).mem.wf ∧
    ∀ n, Host.Core.run core n (raise f s) = .next (raise f s)

/-- R322, R148 (no wrap of an address by the spec's decisions D7 and D8, log entry 13; the latch by its
decision D2, log entry 1): an access above 0xFFF by the fetch, Dxyn, Fx33, Fx55 or Fx65 raises
MemoryOutOfRange with the first out-of-range address in the access order. -/
def Obligations.OutOfRangeAccessFaults : Prop :=
  (∀ s : State, s.fault = none → s.wait = .running → ∀ k, k ≤ 1 → 0xFFF < s.pc.toNat + k →
    (∀ j < k, s.pc.toNat + j ≤ 0xFFF) →
    ∃ t, step s = .next t ∧ t.fault = some (.memoryOutOfRange s.pc (s.pc.toNat + k))) ∧
  (∀ (s : State) (x y : RegIx) (n : Rows) (k : Nat), k < n.val → 0xFFF < s.ea k →
    (∀ j < k, s.ea j ≤ 0xFFF) →
    ∃ t, exec (.drw x y n) s = .next t ∧ t.fault = some (.memoryOutOfRange s.pc (s.ea k))) ∧
  (∀ (s : State) (x : RegIx) (k : Nat), k < 3 → 0xFFF < s.ea k → (∀ j < k, s.ea j ≤ 0xFFF) →
    ∃ t, exec (.ldBVx x) s = .next t ∧ t.fault = some (.memoryOutOfRange s.pc (s.ea k))) ∧
  (∀ (s : State) (x : RegIx) (k : Nat), k ≤ x.val → 0xFFF < s.ea k → (∀ j < k, s.ea j ≤ 0xFFF) →
    ∃ t, exec (.ldMemVx x) s = .next t ∧ t.fault = some (.memoryOutOfRange s.pc (s.ea k))) ∧
  (∀ (s : State) (x : RegIx) (k : Nat), k ≤ x.val → 0xFFF < s.ea k → (∀ j < k, s.ea j ≤ 0xFFF) →
    ∃ t, exec (.ldVxMem x) s = .next t ∧ t.fault = some (.memoryOutOfRange s.pc (s.ea k)))

/-- The model's own stop (log entry 10): outside the legal 0..16 of SP (R38), 2nnn and 00EE stop by
name; no unfaulted state within the invariant is such a state. -/
def Obligations.IllegalStackDepthStops : Prop :=
  (∀ (s : State) (nnn : Addr), 16 < s.sp.toNat →
    (exec (.call nnn) s = .fault .stackIndexOutOfRange ∧ exec .ret s = .fault .stackIndexOutOfRange)) ∧
  (∀ s : State, s.Inv → s.fault = none → ¬ 16 < s.sp.toNat)

/-! ## The display family -/

/-- R170: 00E0. -/
def Obligations.ClearScreen : Prop :=
  ∀ s : State, ∃ t, exec .cls s = .next t ∧ (∀ px py, t.fb.at px py = false) ∧ t.dirty = true ∧
    t.pc = s.pc + 2#16 ∧ ChangesOnly [.fb, .dirty, .pc] s t

/-- R172, with R171, R173, R176 (operands read once by the spec's decision D14, log entry 17; the
start of the accumulation by its parameter DRAW_VF_INIT, D15, log entry 6): Dxyn with its row bytes
in range inverts exactly the pixels where the sprite's bit is 1; VF is 1 exactly when such a pixel
was set, ORed with the prior VF under `keep`. -/
def Obligations.DrawSprite : Prop :=
  ∀ (s : State) (x y : RegIx) (n : Rows), (∀ k < n.val, s.ea k ≤ 0xFFF) →
    ∃ t, exec (.drw x y n) s = .next t ∧
      (∀ px py, (s.InSprite x y n px py → t.fb.at px py = !(s.fb.at px py)) ∧
        (¬ s.InSprite x y n px py → t.fb.at px py = s.fb.at px py)) ∧
      ((∃ px py, s.InSprite x y n px py ∧ s.fb.at px py = true) →
        t.reg 15 = match s.cfg.drawVfInit with
          | .clear => 1#8
          | .keep => s.reg 15 ||| 1#8) ∧
      ((∀ px py, s.InSprite x y n px py → s.fb.at px py = false) →
        t.reg 15 = match s.cfg.drawVfInit with
          | .clear => 0#8
          | .keep => s.reg 15) ∧
      t.dirty = true ∧ t.pc = s.pc + 2#16 ∧ ChangesOnly [.reg 15, .fb, .dirty, .pc] s t

/-- R178 (an inference of the spec's from R176; x and y other than F, so that the second draw has
the same coordinates): drawing the same sprite twice restores the framebuffer, and the second draw
collides exactly where the first set a pixel. -/
def Obligations.DrawTwiceRestores : Prop :=
  ∀ (s t u : State) (x y : RegIx) (n : Rows), x ≠ 15 → y ≠ 15 → (∀ k < n.val, s.ea k ≤ 0xFFF) →
    exec (.drw x y n) s = .next t → exec (.drw x y n) t = .next u →
    u.fb = s.fb ∧
    (s.cfg.drawVfInit = .clear →
      (u.reg 15 = 1#8 ↔ ∃ px py, s.InSprite x y n px py ∧ s.fb.at px py = false))

/-- R175 (the spec's decision D17, log entry 17): Dxy0 draws nothing, for every value of `I`; it
writes VF and marks the framebuffer changed. -/
def Obligations.DrawNoRows : Prop :=
  ∀ (s : State) (x y : RegIx), ∃ t, exec (.drw x y 0) s = .next t ∧
    t.reg 15 = (match s.cfg.drawVfInit with
      | .clear => 0#8
      | .keep => s.reg 15) ∧
    t.dirty = true ∧ t.pc = s.pc + 2#16 ∧ ChangesOnly [.reg 15, .dirty, .pc] s t

/-! ## The control-flow family -/

/-- R193: 0nnn changes nothing but `pc`. -/
def Obligations.LegacyCallIsNoOp : Prop :=
  ∀ (s : State) (nnn : Addr), ∃ t, exec (.sys nnn) s = .next t ∧ t.pc = s.pc + 2#16 ∧
    ChangesOnly [.pc] s t

/-- R194: 1nnn. -/
def Obligations.JumpSetsPc : Prop :=
  ∀ (s : State) (nnn : Addr), ∃ t, exec (.jp nnn) s = .next t ∧ t.pc.toNat = nnn.toNat ∧
    ChangesOnly [.pc] s t

/-- R200 (not reduced to 12 bits by the spec's decision D12, log entry 15): Bnnn. -/
def Obligations.JumpWithOffset : Prop :=
  ∀ (s : State) (nnn : Addr), ∃ t, exec (.jpV0 nnn) s = .next t ∧
    t.pc.toNat = nnn.toNat + (s.reg 0).toNat ∧ ChangesOnly [.pc] s t

/-- R196, R197, R198, R199: the skips on registers and immediates. -/
def Obligations.SkipsOnRegisters : Prop :=
  (∀ (s : State) (x : RegIx) (kk : Byte), ∃ t, exec (.seImm x kk) s = .next t ∧
    t.pc = (if s.reg x = kk then s.pc + 4#16 else s.pc + 2#16) ∧ ChangesOnly [.pc] s t) ∧
  (∀ (s : State) (x : RegIx) (kk : Byte), ∃ t, exec (.sneImm x kk) s = .next t ∧
    t.pc = (if s.reg x = kk then s.pc + 2#16 else s.pc + 4#16) ∧ ChangesOnly [.pc] s t) ∧
  (∀ (s : State) (x y : RegIx), ∃ t, exec (.seReg x y) s = .next t ∧
    t.pc = (if s.reg x = s.reg y then s.pc + 4#16 else s.pc + 2#16) ∧ ChangesOnly [.pc] s t) ∧
  (∀ (s : State) (x y : RegIx), ∃ t, exec (.sneReg x y) s = .next t ∧
    t.pc = (if s.reg x = s.reg y then s.pc + 2#16 else s.pc + 4#16) ∧ ChangesOnly [.pc] s t)

/-- R195 (the place of the pushed entry by the spec's decision D19, log entry 20; the latch as a
next state by its decision D2, log entry 1): 2nnn with room on the stack pushes `pc + 2` and jumps;
on a full stack it raises StackOverflow. -/
def Obligations.CallPushesAndJumps : Prop :=
  ∀ (s : State) (nnn : Addr),
    (∀ h : s.sp.toNat < 16, ∃ t, exec (.call nnn) s = .next t ∧
      t.stack.get ⟨s.sp.toNat, h⟩ = s.pc + 2#16 ∧ t.sp = s.sp + 1#8 ∧ t.pc.toNat = nnn.toNat ∧
      ChangesOnly [.stack ⟨s.sp.toNat, h⟩, .sp, .pc] s t) ∧
    (s.sp = 16#8 → ∃ t, exec (.call nnn) s = .next t ∧ t.fault = some (.stackOverflow s.pc))

/-- R192 (the place of the popped entry by the spec's decision D19, log entry 20; the latch as a
next state by its decision D2, log entry 1): 00EE pops the return address and jumps there; on an
empty stack it raises StackUnderflow. -/
def Obligations.ReturnPopsAndJumps : Prop :=
  ∀ s : State,
    (∀ h : s.sp.toNat - 1 < 16, 0 < s.sp.toNat → ∃ t, exec .ret s = .next t ∧
      t.pc = s.stack.get ⟨s.sp.toNat - 1, h⟩ ∧ t.sp = s.sp - 1#8 ∧ ChangesOnly [.sp, .pc] s t) ∧
    (s.sp = 0#8 → ∃ t, exec .ret s = .next t ∧ t.fault = some (.stackUnderflow s.pc))

/-- R192, R195: 2nnn then 00EE comes back to the address after the call, with SP as before. -/
def Obligations.CallThenReturn : Prop :=
  ∀ (s : State) (nnn : Addr), s.sp.toNat < 16 →
    ∃ t u, exec (.call nnn) s = .next t ∧ exec .ret t = .next u ∧ u.pc = s.pc + 2#16 ∧ u.sp = s.sp

/-! ## The register and arithmetic family -/

/-- R220, R221: 6xkk and 7xkk. -/
def Obligations.ImmediateOperations : Prop :=
  ∀ (s : State) (x : RegIx) (kk : Byte),
    (∃ t, exec (.ldImm x kk) s = .next t ∧ t.reg x = kk ∧ t.pc = s.pc + 2#16 ∧
      ChangesOnly [.reg x, .pc] s t) ∧
    (∃ t, exec (.addImm x kk) s = .next t ∧ (t.reg x).toNat = ((s.reg x).toNat + kk.toNat) % 256 ∧
      t.pc = s.pc + 2#16 ∧ ChangesOnly [.reg x, .pc] s t)

/-- R222, R223, R224, R225: copy and the bitwise operations, VF untouched unless it is the
destination. -/
def Obligations.CopyAndBitwise : Prop :=
  ∀ (s : State) (x y : RegIx),
    (∃ t, exec (.ldReg x y) s = .next t ∧ t.reg x = s.reg y ∧ t.pc = s.pc + 2#16 ∧
      ChangesOnly [.reg x, .pc] s t) ∧
    (∃ t, exec (.orReg x y) s = .next t ∧ t.reg x = s.reg x ||| s.reg y ∧ t.pc = s.pc + 2#16 ∧
      ChangesOnly [.reg x, .pc] s t) ∧
    (∃ t, exec (.andReg x y) s = .next t ∧ t.reg x = s.reg x &&& s.reg y ∧ t.pc = s.pc + 2#16 ∧
      ChangesOnly [.reg x, .pc] s t) ∧
    (∃ t, exec (.xorReg x y) s = .next t ∧ t.reg x = s.reg x ^^^ s.reg y ∧ t.pc = s.pc + 2#16 ∧
      ChangesOnly [.reg x, .pc] s t)

/-- R230 (the order of the two writes where x is F is the spec's decision D13, log entry 16): 8xy4.
The sum is taken before any write, so that y may be F, and VF ends as the carry. -/
def Obligations.AddWithCarry : Prop :=
  ∀ (s : State) (x y : RegIx), ∃ t, exec (.addReg x y) s = .next t ∧
    (x ≠ 15 → (t.reg x).toNat = ((s.reg x).toNat + (s.reg y).toNat) % 256) ∧
    t.reg 15 = (if 255 < (s.reg x).toNat + (s.reg y).toNat then 1#8 else 0#8) ∧
    t.pc = s.pc + 2#16 ∧ ChangesOnly [.reg x, .reg 15, .pc] s t

/-- R231 (the order of the two writes where x or y is F is the spec's decision D13, log entry 16):
8xy5. -/
def Obligations.SubtractVyFromVx : Prop :=
  ∀ (s : State) (x y : RegIx) (f : Byte),
    f = (if (s.reg y).toNat < (s.reg x).toNat then 1#8 else 0#8) →
    ∃ t, exec (.sub x y) s = .next t ∧
      (x ≠ 15 → y ≠ 15 → (t.reg 15 = f ∧ t.reg x = s.reg x - s.reg y)) ∧
      (x ≠ 15 → y = 15 → (t.reg 15 = f ∧ t.reg x = s.reg x - f)) ∧
      (x = 15 → y ≠ 15 → t.reg 15 = f - s.reg y) ∧
      (x = 15 → y = 15 → t.reg 15 = 0#8) ∧
      t.pc = s.pc + 2#16 ∧ ChangesOnly [.reg 15, .reg x, .pc] s t

/-- R233 (the order of the two writes where x or y is F is the spec's decision D13, log entry 16):
8xy7. -/
def Obligations.SubtractVxFromVy : Prop :=
  ∀ (s : State) (x y : RegIx) (f : Byte),
    f = (if (s.reg x).toNat < (s.reg y).toNat then 1#8 else 0#8) →
    ∃ t, exec (.subn x y) s = .next t ∧
      (x ≠ 15 → y ≠ 15 → (t.reg 15 = f ∧ t.reg x = s.reg y - s.reg x)) ∧
      (x ≠ 15 → y = 15 → (t.reg 15 = f ∧ t.reg x = f - s.reg x)) ∧
      (x = 15 → y ≠ 15 → t.reg 15 = s.reg y - f) ∧
      (x = 15 → y = 15 → t.reg 15 = 0#8) ∧
      t.pc = s.pc + 2#16 ∧ ChangesOnly [.reg 15, .reg x, .pc] s t

/-- R232, R234 (the order of the two writes where x is F is the spec's decision D13, log entry 16):
the shifts; Vy is not read. -/
def Obligations.ShiftsByOne : Prop :=
  ∀ (s : State) (x y : RegIx),
    (∃ t, exec (.shr x y) s = .next t ∧
      (x ≠ 15 → ((t.reg x).toNat = (s.reg x).toNat / 2 ∧ (t.reg 15).toNat = (s.reg x).toNat % 2)) ∧
      (x = 15 → t.reg 15 = 0#8) ∧
      t.pc = s.pc + 2#16 ∧ ChangesOnly [.reg 15, .reg x, .pc] s t) ∧
    (∃ t, exec (.shl x y) s = .next t ∧
      (x ≠ 15 → ((t.reg x).toNat = (s.reg x).toNat * 2 % 256 ∧
        (t.reg 15).toNat = (s.reg x).toNat / 128)) ∧
      (x = 15 → t.reg 15 = if (s.reg 15).toNat < 128 then 0#8 else 2#8) ∧
      t.pc = s.pc + 2#16 ∧ ChangesOnly [.reg 15, .reg x, .pc] s t)

/-- R227 (outside the forms where the spec's decision D13 on the order of the writes matters, log
entry 16): what VF is after each instruction of the family (for the subtractions and shifts with VF
not itself the destination), and that equal operands subtract to 0. -/
def Obligations.FlagConventions : Prop :=
  ∀ (s : State) (x y : RegIx) (kk : Byte),
    (∃ t, exec (.addReg x y) s = .next t ∧
      (t.reg 15 = 1#8 ↔ 255 < (s.reg x).toNat + (s.reg y).toNat) ∧
      (t.reg 15 = 0#8 ↔ (s.reg x).toNat + (s.reg y).toNat ≤ 255)) ∧
    (x ≠ 15 →
      (∃ t, exec (.sub x y) s = .next t ∧
        (t.reg 15 = 1#8 ↔ (s.reg y).toNat < (s.reg x).toNat) ∧
        (t.reg 15 = 0#8 ↔ (s.reg x).toNat ≤ (s.reg y).toNat) ∧
        (y ≠ 15 → s.reg x = s.reg y → t.reg x = 0#8)) ∧
      (∃ t, exec (.subn x y) s = .next t ∧
        (t.reg 15 = 1#8 ↔ (s.reg x).toNat < (s.reg y).toNat) ∧
        (t.reg 15 = 0#8 ↔ (s.reg y).toNat ≤ (s.reg x).toNat) ∧
        (y ≠ 15 → s.reg x = s.reg y → t.reg x = 0#8)) ∧
      (∃ t, exec (.shr x y) s = .next t ∧
        t.reg 15 = if (s.reg x).getLsbD 0 = true then 1#8 else 0#8) ∧
      (∃ t, exec (.shl x y) s = .next t ∧
        t.reg 15 = if (s.reg x).getLsbD 7 = true then 1#8 else 0#8) ∧
      ∀ i ∈ [Instr.addImm x kk, .ldReg x y, .orReg x y, .andReg x y, .xorReg x y, .ldImm x kk, .rnd x kk],
        ∃ t, exec i s = .next t ∧ t.reg 15 = s.reg 15)

/-- R235: Cxkk writes the step's random byte masked by kk (held in the model's own field `rand`, log
entry 5); as a whole step, for every byte the driver gives (in the model's own queue, log entry 4),
and the step uses that byte up. -/
def Obligations.RandomByteMasked : Prop :=
  (∀ (s : State) (x : RegIx) (kk : Byte), ∃ t, exec (.rnd x kk) s = .next t ∧
    t.reg x = s.rand &&& kk ∧ (kk = 0x00#8 → t.reg x = 0#8) ∧ (kk = 0xFF#8 → t.reg x = s.rand) ∧
    t.pc = s.pc + 2#16 ∧ ChangesOnly [.reg x, .pc] s t) ∧
  (∀ (s : State) (x : RegIx) (kk r : Byte) (k : Keys) (rest : List StepInput),
    s.AboutToRun (.rnd x kk) → s.inputs = { keys := k, r := r } :: rest →
    ∃ t, step s = .next t ∧ t.reg x = r &&& kk ∧ t.inputs = rest)

/-! ## The index register and memory family -/

/-- R260: Annn. -/
def Obligations.LoadIndex : Prop :=
  ∀ (s : State) (nnn : Addr), ∃ t, exec (.ldI nnn) s = .next t ∧ t.ireg.toNat = nnn.toNat ∧
    t.pc = s.pc + 2#16 ∧ ChangesOnly [.ireg, .pc] s t

/-- R261, R327 (the fault above 0xFFFF by the spec's decision D9, no mask by D10, log entry 14; the
latch as a next state by its decision D2, log entry 1): Fx1E. -/
def Obligations.AddToIndex : Prop :=
  ∀ (s : State) (x : RegIx),
    (s.ireg.toNat + (s.reg x).toNat ≤ 0xFFFF → ∃ t, exec (.addIVx x) s = .next t ∧
      t.ireg.toNat = s.ireg.toNat + (s.reg x).toNat ∧ t.pc = s.pc + 2#16 ∧
      ChangesOnly [.ireg, .pc] s t) ∧
    (0xFFFF < s.ireg.toNat + (s.reg x).toNat → ∃ t, exec (.addIVx x) s = .next t ∧
      t.fault = some (.iOverflow s.pc (s.ireg.toNat + (s.reg x).toNat)))

/-- R262 (Vx not masked by the spec's decision D11, log entry 15): Fx29. -/
def Obligations.GlyphIndex : Prop :=
  ∀ (s : State) (x : RegIx), ∃ t, exec (.ldFVx x) s = .next t ∧
    t.ireg.toNat = (s.reg x).toNat * 5 ∧ t.pc = s.pc + 2#16 ∧ ChangesOnly [.ireg, .pc] s t

/-- R263 (the fault with no wrap of an address by the spec's decision D8, log entry 13, and the
latch as a next state by its decision D2, log entry 1): Fx33 in range stores the three digits at I,
I + 1, I + 2 and changes nothing else; out of range it raises MemoryOutOfRange. -/
def Obligations.StoreDecimalDigits : Prop :=
  ∀ (s : State) (x : RegIx), s.mem.wf →
    (s.ea 2 ≤ 0xFFF → ∃ t, exec (.ldBVx x) s = .next t ∧
      (t.mem.get (s.ea 0)).toNat = (s.reg x).toNat / 100 ∧
      (t.mem.get (s.ea 1)).toNat = (s.reg x).toNat / 10 % 10 ∧
      (t.mem.get (s.ea 2)).toNat = (s.reg x).toNat % 10 ∧
      t.pc = s.pc + 2#16 ∧ ChangesOnly [.mem (s.ea 0), .mem (s.ea 1), .mem (s.ea 2), .pc] s t) ∧
    (∀ k < 3, 0xFFF < s.ea k → (∀ j < k, s.ea j ≤ 0xFFF) →
      ∃ t, exec (.ldBVx x) s = .next t ∧ t.fault = some (.memoryOutOfRange s.pc (s.ea k)))

/-- R264 (the fault with no wrap of an address by the spec's decision D8, log entry 13, and the
latch as a next state by its decision D2, log entry 1): Fx55 in range stores V0..Vx at I..I + x and
changes nothing else; out of range it raises MemoryOutOfRange. -/
def Obligations.StoreRegisters : Prop :=
  ∀ (s : State) (x : RegIx), s.mem.wf →
    (s.ea x.val ≤ 0xFFF → ∃ t, exec (.ldMemVx x) s = .next t ∧
      (∀ k : RegIx, k ≤ x → t.mem.get (s.ea k.val) = s.reg k) ∧
      t.pc = s.pc + 2#16 ∧ ChangesOnly (.pc :: s.memPieces (x.val + 1)) s t) ∧
    (∀ k ≤ x.val, 0xFFF < s.ea k → (∀ j < k, s.ea j ≤ 0xFFF) →
      ∃ t, exec (.ldMemVx x) s = .next t ∧ t.fault = some (.memoryOutOfRange s.pc (s.ea k)))

/-- R265 (the fault with no wrap of an address by the spec's decision D8, log entry 13, and the
latch as a next state by its decision D2, log entry 1): Fx65 in range loads V0..Vx from I..I + x,
the registers above unchanged; out of range it raises MemoryOutOfRange. -/
def Obligations.LoadRegisters : Prop :=
  ∀ (s : State) (x : RegIx),
    (s.ea x.val ≤ 0xFFF → ∃ t, exec (.ldVxMem x) s = .next t ∧
      (∀ k : RegIx, k ≤ x → t.reg k = s.mem.get (s.ea k.val)) ∧
      t.pc = s.pc + 2#16 ∧ ChangesOnly (.pc :: regPieces x) s t) ∧
    (∀ k ≤ x.val, 0xFFF < s.ea k → (∀ j < k, s.ea j ≤ 0xFFF) →
      ∃ t, exec (.ldVxMem x) s = .next t ∧ t.fault = some (.memoryOutOfRange s.pc (s.ea k)))

/-- R264, R265: storing V0..Vx and loading them back into any registers, with `I` as it was,
reproduces them. -/
def Obligations.StoreThenLoadRoundTrip : Prop :=
  ∀ (s t u : State) (x : RegIx), s.mem.wf → s.ea x.val ≤ 0xFFF →
    exec (.ldMemVx x) s = .next t → u.mem = t.mem → u.ireg = t.ireg →
    ∃ w, exec (.ldVxMem x) u = .next w ∧ ∀ k : RegIx, k ≤ x → w.reg k = s.reg k

/-- R72, R85: the two bytes an Fx55 stores where the next fetch reads are the word of that fetch,
the first stored in bits 15..8. -/
def Obligations.StoredBytesAreFetched : Prop :=
  ∀ (s t : State) (x : RegIx), s.mem.wf → 1 ≤ x.val → s.ea x.val ≤ 0xFFF →
    exec (.ldMemVx x) s = .next t → t.pc = s.ireg →
    t.wordAtPc.toNat = (s.reg 0).toNat * 256 + (s.reg 1).toNat

/-! ## The key and timer family -/

/-- R290, R291 (the fault by the spec's decision D18, log entry 19; the latch as a next state by its
decision D2, log entry 1): the skips on keys, from the snapshot of the current step; a Vx above 15
raises KeyIndexOutOfRange. -/
def Obligations.SkipsOnKeys : Prop :=
  ∀ (s : State) (x : RegIx),
    (∀ h : (s.reg x).toNat < 16,
      (∃ t, exec (.skp x) s = .next t ∧
        t.pc = (if s.keys.get ⟨(s.reg x).toNat, h⟩ = true then s.pc + 4#16 else s.pc + 2#16) ∧
        ChangesOnly [.pc] s t) ∧
      (∃ t, exec (.sknp x) s = .next t ∧
        t.pc = (if s.keys.get ⟨(s.reg x).toNat, h⟩ = true then s.pc + 2#16 else s.pc + 4#16) ∧
        ChangesOnly [.pc] s t)) ∧
    (15 < (s.reg x).toNat →
      (∃ t, exec (.skp x) s = .next t ∧ t.fault = some (.keyIndexOutOfRange s.pc (s.reg x))) ∧
      (∃ t, exec (.sknp x) s = .next t ∧ t.fault = some (.keyIndexOutOfRange s.pc (s.reg x)))) ∧
    (s.AboutToRun (.skp x) → ∀ h : (s.reg x).toNat < 16, ∃ t, step s = .next t ∧
      t.pc = (if s.nextInput.keys.get ⟨(s.reg x).toNat, h⟩ = true then s.pc + 4#16 else s.pc + 2#16)) ∧
    (s.AboutToRun (.sknp x) → ∀ h : (s.reg x).toNat < 16, ∃ t, step s = .next t ∧
      t.pc = (if s.nextInput.keys.get ⟨(s.reg x).toNat, h⟩ = true then s.pc + 2#16 else s.pc + 4#16))

/-- R292, R294: Fx07 reads the value this step's tick leaves, and a value Fx15 writes is not
decremented by the tick of its own step; a timer at 0 stays there. -/
def Obligations.DelayTimerAccess : Prop :=
  ∀ (s : State) (x : RegIx),
    (∃ t, exec (.ldVxDt x) s = .next t ∧ t.reg x = s.dt ∧ t.pc = s.pc + 2#16 ∧
      ChangesOnly [.reg x, .pc] s t) ∧
    (∃ t, exec (.ldDtVx x) s = .next t ∧ t.dt = s.reg x ∧ t.pc = s.pc + 2#16 ∧
      ChangesOnly [.dt, .pc] s t) ∧
    (s.AboutToRun (.ldVxDt x) → ∃ t, step s = .next t ∧ t.dt = s.latch.tick.dt ∧ t.reg x = t.dt) ∧
    (s.AboutToRun (.ldDtVx x) → ∃ t, step s = .next t ∧ t.dt = s.reg x) ∧
    (s.dt = 0#8 → s.tick.dt = 0#8)

/-- R295: Fx18. -/
def Obligations.SetSoundTimer : Prop :=
  ∀ (s : State) (x : RegIx), ∃ t, exec (.ldStVx x) s = .next t ∧ t.st = s.reg x ∧
    t.pc = s.pc + 2#16 ∧ ChangesOnly [.st, .pc] s t

/-- R293 (`pc` past Fx0A by the spec's decision D22, log entry 21): Fx0A enters the wait and
advances `pc`; no key of its own step ends the wait, Vx is unchanged, and the step that resolves the
wait writes the lowest pressed key's index there. -/
def Obligations.WaitForKey : Prop :=
  (∀ (s : State) (x : RegIx), ∃ t, exec (.ldVxK x) s = .next t ∧ t.wait = .awaitingKey x ∧
    t.pc = s.pc + 2#16 ∧ ChangesOnly [.wait, .pc] s t) ∧
  (∀ (s : State) (x : RegIx), s.AboutToRun (.ldVxK x) →
    ∃ t, step s = .next t ∧ t.wait = .awaitingKey x ∧ t.reg x = s.reg x ∧ t.pc = s.pc + 2#16) ∧
  (∀ (s : State) (x k : RegIx), s.fault = none → s.wait = .awaitingKey x →
    s.nextInput.keys.get k = true → (∀ j < k, s.nextInput.keys.get j = false) →
    ∃ t, step s = .next t ∧ (t.reg x).toNat = k.val)

/-! ## Every instruction -/

/-- R51 (an inference of the spec's from the table of its source), the "writes" column: an
instruction that does not raise changes `pc` and the pieces of its row of the table, and nothing
else. -/
def Obligations.EveryInstructionWritesItsRow : Prop :=
  ∀ (i : Instr) (s t : State), s.mem.wf → s.fault = none → exec i s = .next t → t.fault = none →
    ChangesOnly (.pc :: writes i s) s t

/-- R51 (an inference of the spec's from the table of its source), the "reads" column with the
additions that `reads` names (`pc` for NEXT and SKIP, the random byte as the model holds it,
DRAW_VF_INIT and under keep VF for Dxyn): two states that agree on what an instruction's row reads
agree, after it, on what it writes, where it raises in neither. -/
def Obligations.EveryInstructionReadsItsRow : Prop :=
  ∀ (i : Instr) (s t s' t' : State), s.mem.wf → s'.mem.wf → s.fault = none → s'.fault = none →
    exec i s = .next t → exec i s' = .next t' → t.fault = none → t'.fault = none →
    (∀ p ∈ reads i s, Agree p s s') → ∀ p ∈ .pc :: writes i s, Agree p t t'
end

