-- ==== Sys2Proof/Laws/Memory.lean ====
section
/-!
SUPPORT. Laws/Memory.lean: reading after a write, and that every memory operation keeps the
canonical form.
-/

namespace Sys2Proof.Machine

/-- An address no cell lists reads as the reset contents. -/
theorem Memory.get_unlisted (m : Memory) (a : Nat) (h : ∀ c ∈ m, c.1 ≠ a) :
    Memory.get m a = Memory.init a := by
  induction m with
  | nil => rfl
  | cons c m ih =>
    have hc : a ≠ c.1 := fun e => h c (by simp) e.symm
    simp only [Memory.get, if_neg hc]
    exact ih fun d hd => h d (List.mem_cons_of_mem _ hd)

/-- A read after a write in a memory whose addresses rise strictly. -/
theorem Memory.get_set_sorted (m : Memory) (hm : m.Pairwise fun c d => c.1 < d.1) (a b : Nat) (x : Byte) :
    Memory.get (Memory.set m a x) b = if b = a then x else Memory.get m b := by
  induction m with
  | nil =>
    by_cases hx : x = Memory.init a <;> by_cases hb : b = a <;> simp [Memory.set, Memory.get, hx, hb]
  | cons c m ih =>
    obtain ⟨hc, hm⟩ := List.pairwise_cons.mp hm
    have hun : ∀ e, e ≤ c.1 → Memory.get m e = Memory.init e := fun e he =>
      Memory.get_unlisted m e fun d hd => by have := hc d hd; omega
    simp only [Memory.set]
    split
    · split
      · by_cases hb : b = a
        · subst hb
          have := hun b (by omega)
          simp_all [Memory.get, Nat.ne_of_lt]
        · simp [hb]
      · by_cases hb : b = a <;> simp [Memory.get, hb]
    · split
      · subst a
        split
        · by_cases hb : b = c.1
          · simp_all
          · simp [Memory.get, hb]
        · by_cases hb : b = c.1 <;> simp [Memory.get, hb]
      · simp only [Memory.get, ih hm]
        by_cases hb : b = c.1
        · simp [hb, show c.1 ≠ a by omega]
        · simp [hb]

/-- A read after a write gives the byte written there, and every other byte as before. -/
theorem Memory.get_set (m : Memory) (hm : m.wf) (a b : Nat) (x : Byte) :
    Memory.get (Memory.set m a x) b = if b = a then x else Memory.get m b :=
  Memory.get_set_sorted m hm.1 a b x

/-- The cells after a write: the written one, not equal to the reset contents, and old ones. -/
theorem Memory.mem_set {m : Memory} {a : Nat} {x : Byte} {c : Host.Cell}
    (h : c ∈ Memory.set m a x) : (c = (a, x) ∧ x ≠ Memory.init a) ∨ c ∈ m := by
  induction m with
  | nil =>
    simp only [Memory.set] at h
    split at h
    · simp at h
    · exact .inl ⟨by simpa using h, ‹_›⟩
  | cons d m ih =>
    simp only [Memory.set] at h
    split at h
    · split at h
      · exact .inr h
      · rcases List.mem_cons.mp h with h | h
        · exact .inl ⟨h, ‹_›⟩
        · exact .inr h
    · split at h
      · split at h
        · exact .inr (List.mem_cons_of_mem _ h)
        · rcases List.mem_cons.mp h with h | h
          · exact .inl ⟨h, ‹_›⟩
          · exact .inr (List.mem_cons_of_mem _ h)
      · rcases List.mem_cons.mp h with h | h
        · exact .inr (h ▸ List.mem_cons_self)
        · rcases ih h with h | h
          · exact .inl h
          · exact .inr (List.mem_cons_of_mem _ h)

/-- A write keeps the addresses strictly rising. -/
theorem Memory.set_sorted (m : Memory) (hm : m.Pairwise fun c d => c.1 < d.1) (a : Nat) (x : Byte) :
    (Memory.set m a x).Pairwise fun c d => c.1 < d.1 := by
  induction m with
  | nil => simp only [Memory.set]; split <;> simp
  | cons c m ih =>
    obtain ⟨hc, hm'⟩ := List.pairwise_cons.mp hm
    simp only [Memory.set]
    split
    · split
      · exact hm
      · refine List.pairwise_cons.mpr ⟨fun d hd => ?_, hm⟩
        rcases List.mem_cons.mp hd with rfl | hd
        · assumption
        · have := hc d hd
          simp only
          omega
    · split
      · subst a
        split
        · exact hm'
        · exact List.pairwise_cons.mpr ⟨hc, hm'⟩
      · refine List.pairwise_cons.mpr ⟨fun d hd => ?_, ih hm'⟩
        rcases Memory.mem_set hd with ⟨rfl, -⟩ | hd
        · simp only
          omega
        · exact hc d hd

/-- A write inside the address space keeps the canonical form. -/
theorem Memory.set_wf (m : Memory) (hm : m.wf) (a : Nat) (ha : a ≤ 0xFFF) (x : Byte) :
    (Memory.set m a x).wf := by
  refine ⟨Memory.set_sorted m hm.1 a x, fun c hc => ?_⟩
  rcases Memory.mem_set hc with ⟨rfl, hx⟩ | hc
  · exact ⟨ha, hx⟩
  · exact hm.2 c hc

/-- Consecutive writes inside the address space keep the canonical form. -/
theorem Memory.setList_wf (xs : List Byte) (m : Memory) (hm : m.wf) (a : Nat)
    (ha : a + xs.length ≤ 0x1000) : (Memory.setList m a xs).wf := by
  induction xs generalizing m a with
  | nil => exact hm
  | cons x xs ih =>
    simp only [List.length_cons] at ha
    exact ih _ (Memory.set_wf m hm a (by omega) x) _ (by omega)

/-- Reading after consecutive writes: inside them the byte of the list, outside as before. -/
theorem Memory.get_setList (xs : List Byte) (m : Memory) (hm : m.Pairwise fun c d => c.1 < d.1)
    (a b : Nat) : Memory.get (Memory.setList m a xs) b =
      if a ≤ b ∧ b < a + xs.length then xs.getD (b - a) 0 else Memory.get m b := by
  induction xs generalizing m a with
  | nil => simp [Memory.setList, show ¬(a ≤ b ∧ b < a) by omega]
  | cons x xs ih =>
    simp only [Memory.setList, ih _ (Memory.set_sorted m hm a x) (a + 1), Memory.get_set_sorted m hm,
      List.length_cons]
    by_cases hb : b = a
    · subst hb
      simp
    · by_cases hr : a + 1 ≤ b ∧ b < a + 1 + xs.length
      · rw [if_pos hr, if_pos (by omega), show b - a = (b - (a + 1)) + 1 by omega]
        simp
      · rw [if_neg hr, if_neg hb, if_neg (by omega)]

/-- Cells picked from a strictly rising list of addresses have strictly rising addresses. -/
theorem Memory.pick_sorted (f : Nat → Option Byte) (l : List Nat) (hl : l.Pairwise (· < ·)) :
    (l.filterMap fun a => (f a).map fun x => ((a, x) : Host.Cell)).Pairwise fun c d => c.1 < d.1 := by
  refine List.Pairwise.filterMap _ (fun a a' h c hc d hd => ?_) hl
  simp only [Option.map_eq_some_iff] at hc hd
  obtain ⟨_, -, rfl⟩ := hc
  obtain ⟨_, -, rfl⟩ := hd
  exact h

/-- `canon` unfolded once. -/
theorem Memory.canon_def (m : Memory) : Memory.canon m = (List.range 0x1000).filterMap fun a =>
    if Memory.get m a = Memory.init a then none else some (a, Memory.get m a) := by
  delta Memory.canon; rfl

/-- `canon` as cells picked from the addresses of the address space. -/
theorem Memory.canon_eq (m : Memory) : Memory.canon m = (List.range 0x1000).filterMap fun a =>
    (if Memory.get m a = Memory.init a then none else some (Memory.get m a)).map
      fun x => ((a, x) : Host.Cell) := by
  rw [Memory.canon_def]
  refine congrArg (fun g => List.filterMap g (List.range 0x1000)) ?_
  funext a
  split <;> rfl

/-- `canon` gives the canonical form. -/
theorem Memory.canon_wf (m : Memory) : (Memory.canon m).wf := by
  refine ⟨?_, fun c hc => ?_⟩
  · rw [Memory.canon_eq]
    exact Memory.pick_sorted _ _ List.pairwise_lt_range
  · rw [Memory.canon_def] at hc
    simp only [List.mem_filterMap, List.mem_range] at hc
    obtain ⟨a, ha, hc⟩ := hc
    split at hc
    · cases hc
    · cases hc
      exact ⟨by omega, ‹_›⟩

/-- The cells of `canon`. -/
theorem Memory.mem_canon {m : Memory} {c : Host.Cell} (h : c ∈ Memory.canon m) :
    c.2 = Memory.get m c.1 := by
  rw [Memory.canon_def] at h
  simp only [List.mem_filterMap] at h
  obtain ⟨a, -, h⟩ := h
  split at h
  · cases h
  · cases h; rfl

/-- A listed cell of a sorted memory is what its address reads as. -/
theorem Memory.get_of_mem {m : Memory} (hm : m.Pairwise fun c d => c.1 < d.1) {c : Host.Cell}
    (h : c ∈ m) : Memory.get m c.1 = c.2 := by
  induction m with
  | nil => cases h
  | cons d m ih =>
    obtain ⟨hd, hm⟩ := List.pairwise_cons.mp hm
    rcases List.mem_cons.mp h with rfl | h
    · simp [Memory.get]
    · have := hd c h
      simp only [Memory.get]
      rw [if_neg (by omega)]
      exact ih hm h

/-- `canon` reads as the memory it was made from, at every address of the address space. -/
theorem Memory.get_canon (m : Memory) (a : Nat) (ha : a ≤ 0xFFF) :
    Memory.get (Memory.canon m) a = Memory.get m a := by
  by_cases h : Memory.get m a = Memory.init a
  · rw [h]
    refine Memory.get_unlisted _ _ fun c hc e => ?_
    have h1 := (Memory.canon_wf m).2 c hc
    have h2 := Memory.mem_canon hc
    rw [h2, e] at h1
    exact h1.2 h
  · have : ((a, Memory.get m a) : Host.Cell) ∈ Memory.canon m := by
      rw [Memory.canon_def]
      refine List.mem_filterMap.mpr ⟨a, List.mem_range.mpr (by omega), ?_⟩
      rw [if_neg h]
    exact Memory.get_of_mem (c := (a, Memory.get m a)) (Memory.canon_wf m).1 this

/-- Two canonical memories that read alike everywhere are equal data. -/
theorem Memory.wf_ext {m n : Memory} (hm : m.wf) (hn : n.wf)
    (h : ∀ a, Memory.get m a = Memory.get n a) : m = n := by
  induction m generalizing n with
  | nil =>
    cases n with
    | nil => rfl
    | cons d n => exact absurd (by simpa [Memory.get] using (h d.1).symm) (hn.2 d (by simp)).2
  | cons c m ih =>
    cases n with
    | nil => exact absurd (by simpa [Memory.get] using h c.1) (hm.2 c (by simp)).2
    | cons d n =>
      obtain ⟨hc, hm'⟩ := List.pairwise_cons.mp hm.1
      obtain ⟨hd, hn'⟩ := List.pairwise_cons.mp hn.1
      have hcd : c.1 = d.1 := by
        by_contra hne
        rcases Nat.lt_or_gt_of_ne hne with hlt | hlt
        · have := h c.1
          rw [Memory.get_of_mem hm.1 (by simp), Memory.get_unlisted (d :: n) c.1] at this
          · exact (hm.2 c (by simp)).2 this
          · intro e he
            rcases List.mem_cons.mp he with rfl | he
            · omega
            · have := hd e he; omega
        · have := h d.1
          rw [Memory.get_of_mem hn.1 (by simp), Memory.get_unlisted (c :: m) d.1] at this
          · exact (hn.2 d (by simp)).2 this.symm
          · intro e he
            rcases List.mem_cons.mp he with rfl | he
            · omega
            · have := hc e he; omega
      have hv : c.2 = d.2 := by
        have := h c.1
        rwa [Memory.get_of_mem hm.1 (by simp), hcd, Memory.get_of_mem hn.1 (by simp)] at this
      have hc' : c = d := Prod.ext hcd hv
      subst hc'
      refine congrArg _ (ih ⟨hm', fun e he => hm.2 e (by simp [he])⟩ ⟨hn', fun e he => hn.2 e (by simp [he])⟩ fun a => ?_)
      by_cases ha : a = c.1
      · subst ha
        rw [Memory.get_unlisted m _ fun e he => by have := hc e he; omega,
          Memory.get_unlisted n _ fun e he => by have := hd e he; omega]
      · simpa [Memory.get, ha] using h a

end Sys2Proof.Machine
end

