-- ==== Sys2Proof/Laws/State.lean ====
section
/-!
SUPPORT. Laws/State.lean: what each named update of the state leaves in each field, so that no proof
unfolds a record update.
-/

namespace Sys2Proof.Machine

/-! The two spellings of VF. -/

@[simp] theorem State.vf_eq (s : State) : s.vf = s.reg 15 := rfl
@[simp] theorem State.setVf_eq (s : State) (b : Byte) : s.setVf b = s.setReg 15 b := rfl

/-! setReg -/

@[simp] theorem State.setReg_ireg (s : State) (x : RegIx) (b : Byte) : (s.setReg x b).ireg = s.ireg := rfl
@[simp] theorem State.setReg_pc (s : State) (x : RegIx) (b : Byte) : (s.setReg x b).pc = s.pc := rfl
@[simp] theorem State.setReg_sp (s : State) (x : RegIx) (b : Byte) : (s.setReg x b).sp = s.sp := rfl
@[simp] theorem State.setReg_stack (s : State) (x : RegIx) (b : Byte) : (s.setReg x b).stack = s.stack := rfl
@[simp] theorem State.setReg_dt (s : State) (x : RegIx) (b : Byte) : (s.setReg x b).dt = s.dt := rfl
@[simp] theorem State.setReg_st (s : State) (x : RegIx) (b : Byte) : (s.setReg x b).st = s.st := rfl
@[simp] theorem State.setReg_cyc (s : State) (x : RegIx) (b : Byte) : (s.setReg x b).cyc = s.cyc := rfl
@[simp] theorem State.setReg_fb (s : State) (x : RegIx) (b : Byte) : (s.setReg x b).fb = s.fb := rfl
@[simp] theorem State.setReg_dirty (s : State) (x : RegIx) (b : Byte) : (s.setReg x b).dirty = s.dirty := rfl
@[simp] theorem State.setReg_keys (s : State) (x : RegIx) (b : Byte) : (s.setReg x b).keys = s.keys := rfl
@[simp] theorem State.setReg_wait (s : State) (x : RegIx) (b : Byte) : (s.setReg x b).wait = s.wait := rfl
@[simp] theorem State.setReg_fault (s : State) (x : RegIx) (b : Byte) : (s.setReg x b).fault = s.fault := rfl
@[simp] theorem State.setReg_mem (s : State) (x : RegIx) (b : Byte) : (s.setReg x b).mem = s.mem := rfl
@[simp] theorem State.setReg_rand (s : State) (x : RegIx) (b : Byte) : (s.setReg x b).rand = s.rand := rfl
@[simp] theorem State.setReg_inputs (s : State) (x : RegIx) (b : Byte) : (s.setReg x b).inputs = s.inputs := rfl
@[simp] theorem State.setReg_stepNo (s : State) (x : RegIx) (b : Byte) : (s.setReg x b).stepNo = s.stepNo := rfl
@[simp] theorem State.setReg_cfg (s : State) (x : RegIx) (b : Byte) : (s.setReg x b).cfg = s.cfg := rfl

/-! loadRegs -/

@[simp] theorem State.loadRegs_ireg (s : State) (bs : List Byte) : (s.loadRegs bs).ireg = s.ireg := rfl
@[simp] theorem State.loadRegs_pc (s : State) (bs : List Byte) : (s.loadRegs bs).pc = s.pc := rfl
@[simp] theorem State.loadRegs_sp (s : State) (bs : List Byte) : (s.loadRegs bs).sp = s.sp := rfl
@[simp] theorem State.loadRegs_stack (s : State) (bs : List Byte) : (s.loadRegs bs).stack = s.stack := rfl
@[simp] theorem State.loadRegs_dt (s : State) (bs : List Byte) : (s.loadRegs bs).dt = s.dt := rfl
@[simp] theorem State.loadRegs_st (s : State) (bs : List Byte) : (s.loadRegs bs).st = s.st := rfl
@[simp] theorem State.loadRegs_cyc (s : State) (bs : List Byte) : (s.loadRegs bs).cyc = s.cyc := rfl
@[simp] theorem State.loadRegs_fb (s : State) (bs : List Byte) : (s.loadRegs bs).fb = s.fb := rfl
@[simp] theorem State.loadRegs_dirty (s : State) (bs : List Byte) : (s.loadRegs bs).dirty = s.dirty := rfl
@[simp] theorem State.loadRegs_keys (s : State) (bs : List Byte) : (s.loadRegs bs).keys = s.keys := rfl
@[simp] theorem State.loadRegs_wait (s : State) (bs : List Byte) : (s.loadRegs bs).wait = s.wait := rfl
@[simp] theorem State.loadRegs_fault (s : State) (bs : List Byte) : (s.loadRegs bs).fault = s.fault := rfl
@[simp] theorem State.loadRegs_mem (s : State) (bs : List Byte) : (s.loadRegs bs).mem = s.mem := rfl
@[simp] theorem State.loadRegs_rand (s : State) (bs : List Byte) : (s.loadRegs bs).rand = s.rand := rfl
@[simp] theorem State.loadRegs_inputs (s : State) (bs : List Byte) : (s.loadRegs bs).inputs = s.inputs := rfl
@[simp] theorem State.loadRegs_stepNo (s : State) (bs : List Byte) : (s.loadRegs bs).stepNo = s.stepNo := rfl
@[simp] theorem State.loadRegs_cfg (s : State) (bs : List Byte) : (s.loadRegs bs).cfg = s.cfg := rfl

/-! setIreg -/

@[simp] theorem State.setIreg_v (s : State) (w : Word) : (s.setIreg w).v = s.v := rfl
@[simp] theorem State.setIreg_ireg (s : State) (w : Word) : (s.setIreg w).ireg = w := rfl
@[simp] theorem State.setIreg_pc (s : State) (w : Word) : (s.setIreg w).pc = s.pc := rfl
@[simp] theorem State.setIreg_sp (s : State) (w : Word) : (s.setIreg w).sp = s.sp := rfl
@[simp] theorem State.setIreg_stack (s : State) (w : Word) : (s.setIreg w).stack = s.stack := rfl
@[simp] theorem State.setIreg_dt (s : State) (w : Word) : (s.setIreg w).dt = s.dt := rfl
@[simp] theorem State.setIreg_st (s : State) (w : Word) : (s.setIreg w).st = s.st := rfl
@[simp] theorem State.setIreg_cyc (s : State) (w : Word) : (s.setIreg w).cyc = s.cyc := rfl
@[simp] theorem State.setIreg_fb (s : State) (w : Word) : (s.setIreg w).fb = s.fb := rfl
@[simp] theorem State.setIreg_dirty (s : State) (w : Word) : (s.setIreg w).dirty = s.dirty := rfl
@[simp] theorem State.setIreg_keys (s : State) (w : Word) : (s.setIreg w).keys = s.keys := rfl
@[simp] theorem State.setIreg_wait (s : State) (w : Word) : (s.setIreg w).wait = s.wait := rfl
@[simp] theorem State.setIreg_fault (s : State) (w : Word) : (s.setIreg w).fault = s.fault := rfl
@[simp] theorem State.setIreg_mem (s : State) (w : Word) : (s.setIreg w).mem = s.mem := rfl
@[simp] theorem State.setIreg_rand (s : State) (w : Word) : (s.setIreg w).rand = s.rand := rfl
@[simp] theorem State.setIreg_inputs (s : State) (w : Word) : (s.setIreg w).inputs = s.inputs := rfl
@[simp] theorem State.setIreg_stepNo (s : State) (w : Word) : (s.setIreg w).stepNo = s.stepNo := rfl
@[simp] theorem State.setIreg_cfg (s : State) (w : Word) : (s.setIreg w).cfg = s.cfg := rfl

/-! setDt -/

@[simp] theorem State.setDt_v (s : State) (b : Byte) : (s.setDt b).v = s.v := rfl
@[simp] theorem State.setDt_ireg (s : State) (b : Byte) : (s.setDt b).ireg = s.ireg := rfl
@[simp] theorem State.setDt_pc (s : State) (b : Byte) : (s.setDt b).pc = s.pc := rfl
@[simp] theorem State.setDt_sp (s : State) (b : Byte) : (s.setDt b).sp = s.sp := rfl
@[simp] theorem State.setDt_stack (s : State) (b : Byte) : (s.setDt b).stack = s.stack := rfl
@[simp] theorem State.setDt_dt (s : State) (b : Byte) : (s.setDt b).dt = b := rfl
@[simp] theorem State.setDt_st (s : State) (b : Byte) : (s.setDt b).st = s.st := rfl
@[simp] theorem State.setDt_cyc (s : State) (b : Byte) : (s.setDt b).cyc = s.cyc := rfl
@[simp] theorem State.setDt_fb (s : State) (b : Byte) : (s.setDt b).fb = s.fb := rfl
@[simp] theorem State.setDt_dirty (s : State) (b : Byte) : (s.setDt b).dirty = s.dirty := rfl
@[simp] theorem State.setDt_keys (s : State) (b : Byte) : (s.setDt b).keys = s.keys := rfl
@[simp] theorem State.setDt_wait (s : State) (b : Byte) : (s.setDt b).wait = s.wait := rfl
@[simp] theorem State.setDt_fault (s : State) (b : Byte) : (s.setDt b).fault = s.fault := rfl
@[simp] theorem State.setDt_mem (s : State) (b : Byte) : (s.setDt b).mem = s.mem := rfl
@[simp] theorem State.setDt_rand (s : State) (b : Byte) : (s.setDt b).rand = s.rand := rfl
@[simp] theorem State.setDt_inputs (s : State) (b : Byte) : (s.setDt b).inputs = s.inputs := rfl
@[simp] theorem State.setDt_stepNo (s : State) (b : Byte) : (s.setDt b).stepNo = s.stepNo := rfl
@[simp] theorem State.setDt_cfg (s : State) (b : Byte) : (s.setDt b).cfg = s.cfg := rfl

/-! setSt -/

@[simp] theorem State.setSt_v (s : State) (b : Byte) : (s.setSt b).v = s.v := rfl
@[simp] theorem State.setSt_ireg (s : State) (b : Byte) : (s.setSt b).ireg = s.ireg := rfl
@[simp] theorem State.setSt_pc (s : State) (b : Byte) : (s.setSt b).pc = s.pc := rfl
@[simp] theorem State.setSt_sp (s : State) (b : Byte) : (s.setSt b).sp = s.sp := rfl
@[simp] theorem State.setSt_stack (s : State) (b : Byte) : (s.setSt b).stack = s.stack := rfl
@[simp] theorem State.setSt_dt (s : State) (b : Byte) : (s.setSt b).dt = s.dt := rfl
@[simp] theorem State.setSt_st (s : State) (b : Byte) : (s.setSt b).st = b := rfl
@[simp] theorem State.setSt_cyc (s : State) (b : Byte) : (s.setSt b).cyc = s.cyc := rfl
@[simp] theorem State.setSt_fb (s : State) (b : Byte) : (s.setSt b).fb = s.fb := rfl
@[simp] theorem State.setSt_dirty (s : State) (b : Byte) : (s.setSt b).dirty = s.dirty := rfl
@[simp] theorem State.setSt_keys (s : State) (b : Byte) : (s.setSt b).keys = s.keys := rfl
@[simp] theorem State.setSt_wait (s : State) (b : Byte) : (s.setSt b).wait = s.wait := rfl
@[simp] theorem State.setSt_fault (s : State) (b : Byte) : (s.setSt b).fault = s.fault := rfl
@[simp] theorem State.setSt_mem (s : State) (b : Byte) : (s.setSt b).mem = s.mem := rfl
@[simp] theorem State.setSt_rand (s : State) (b : Byte) : (s.setSt b).rand = s.rand := rfl
@[simp] theorem State.setSt_inputs (s : State) (b : Byte) : (s.setSt b).inputs = s.inputs := rfl
@[simp] theorem State.setSt_stepNo (s : State) (b : Byte) : (s.setSt b).stepNo = s.stepNo := rfl
@[simp] theorem State.setSt_cfg (s : State) (b : Byte) : (s.setSt b).cfg = s.cfg := rfl

/-! setWait -/

@[simp] theorem State.setWait_v (s : State) (w : Wait) : (s.setWait w).v = s.v := rfl
@[simp] theorem State.setWait_ireg (s : State) (w : Wait) : (s.setWait w).ireg = s.ireg := rfl
@[simp] theorem State.setWait_pc (s : State) (w : Wait) : (s.setWait w).pc = s.pc := rfl
@[simp] theorem State.setWait_sp (s : State) (w : Wait) : (s.setWait w).sp = s.sp := rfl
@[simp] theorem State.setWait_stack (s : State) (w : Wait) : (s.setWait w).stack = s.stack := rfl
@[simp] theorem State.setWait_dt (s : State) (w : Wait) : (s.setWait w).dt = s.dt := rfl
@[simp] theorem State.setWait_st (s : State) (w : Wait) : (s.setWait w).st = s.st := rfl
@[simp] theorem State.setWait_cyc (s : State) (w : Wait) : (s.setWait w).cyc = s.cyc := rfl
@[simp] theorem State.setWait_fb (s : State) (w : Wait) : (s.setWait w).fb = s.fb := rfl
@[simp] theorem State.setWait_dirty (s : State) (w : Wait) : (s.setWait w).dirty = s.dirty := rfl
@[simp] theorem State.setWait_keys (s : State) (w : Wait) : (s.setWait w).keys = s.keys := rfl
@[simp] theorem State.setWait_wait (s : State) (w : Wait) : (s.setWait w).wait = w := rfl
@[simp] theorem State.setWait_fault (s : State) (w : Wait) : (s.setWait w).fault = s.fault := rfl
@[simp] theorem State.setWait_mem (s : State) (w : Wait) : (s.setWait w).mem = s.mem := rfl
@[simp] theorem State.setWait_rand (s : State) (w : Wait) : (s.setWait w).rand = s.rand := rfl
@[simp] theorem State.setWait_inputs (s : State) (w : Wait) : (s.setWait w).inputs = s.inputs := rfl
@[simp] theorem State.setWait_stepNo (s : State) (w : Wait) : (s.setWait w).stepNo = s.stepNo := rfl
@[simp] theorem State.setWait_cfg (s : State) (w : Wait) : (s.setWait w).cfg = s.cfg := rfl

/-! setMem -/

@[simp] theorem State.setMem_v (s : State) (m : Memory) : (s.setMem m).v = s.v := rfl
@[simp] theorem State.setMem_ireg (s : State) (m : Memory) : (s.setMem m).ireg = s.ireg := rfl
@[simp] theorem State.setMem_pc (s : State) (m : Memory) : (s.setMem m).pc = s.pc := rfl
@[simp] theorem State.setMem_sp (s : State) (m : Memory) : (s.setMem m).sp = s.sp := rfl
@[simp] theorem State.setMem_stack (s : State) (m : Memory) : (s.setMem m).stack = s.stack := rfl
@[simp] theorem State.setMem_dt (s : State) (m : Memory) : (s.setMem m).dt = s.dt := rfl
@[simp] theorem State.setMem_st (s : State) (m : Memory) : (s.setMem m).st = s.st := rfl
@[simp] theorem State.setMem_cyc (s : State) (m : Memory) : (s.setMem m).cyc = s.cyc := rfl
@[simp] theorem State.setMem_fb (s : State) (m : Memory) : (s.setMem m).fb = s.fb := rfl
@[simp] theorem State.setMem_dirty (s : State) (m : Memory) : (s.setMem m).dirty = s.dirty := rfl
@[simp] theorem State.setMem_keys (s : State) (m : Memory) : (s.setMem m).keys = s.keys := rfl
@[simp] theorem State.setMem_wait (s : State) (m : Memory) : (s.setMem m).wait = s.wait := rfl
@[simp] theorem State.setMem_fault (s : State) (m : Memory) : (s.setMem m).fault = s.fault := rfl
@[simp] theorem State.setMem_mem (s : State) (m : Memory) : (s.setMem m).mem = m := rfl
@[simp] theorem State.setMem_rand (s : State) (m : Memory) : (s.setMem m).rand = s.rand := rfl
@[simp] theorem State.setMem_inputs (s : State) (m : Memory) : (s.setMem m).inputs = s.inputs := rfl
@[simp] theorem State.setMem_stepNo (s : State) (m : Memory) : (s.setMem m).stepNo = s.stepNo := rfl
@[simp] theorem State.setMem_cfg (s : State) (m : Memory) : (s.setMem m).cfg = s.cfg := rfl

/-! setFb -/

@[simp] theorem State.setFb_v (s : State) (f : Framebuffer) : (s.setFb f).v = s.v := rfl
@[simp] theorem State.setFb_ireg (s : State) (f : Framebuffer) : (s.setFb f).ireg = s.ireg := rfl
@[simp] theorem State.setFb_pc (s : State) (f : Framebuffer) : (s.setFb f).pc = s.pc := rfl
@[simp] theorem State.setFb_sp (s : State) (f : Framebuffer) : (s.setFb f).sp = s.sp := rfl
@[simp] theorem State.setFb_stack (s : State) (f : Framebuffer) : (s.setFb f).stack = s.stack := rfl
@[simp] theorem State.setFb_dt (s : State) (f : Framebuffer) : (s.setFb f).dt = s.dt := rfl
@[simp] theorem State.setFb_st (s : State) (f : Framebuffer) : (s.setFb f).st = s.st := rfl
@[simp] theorem State.setFb_cyc (s : State) (f : Framebuffer) : (s.setFb f).cyc = s.cyc := rfl
@[simp] theorem State.setFb_fb (s : State) (f : Framebuffer) : (s.setFb f).fb = f := rfl
@[simp] theorem State.setFb_dirty (s : State) (f : Framebuffer) : (s.setFb f).dirty = true := rfl
@[simp] theorem State.setFb_keys (s : State) (f : Framebuffer) : (s.setFb f).keys = s.keys := rfl
@[simp] theorem State.setFb_wait (s : State) (f : Framebuffer) : (s.setFb f).wait = s.wait := rfl
@[simp] theorem State.setFb_fault (s : State) (f : Framebuffer) : (s.setFb f).fault = s.fault := rfl
@[simp] theorem State.setFb_mem (s : State) (f : Framebuffer) : (s.setFb f).mem = s.mem := rfl
@[simp] theorem State.setFb_rand (s : State) (f : Framebuffer) : (s.setFb f).rand = s.rand := rfl
@[simp] theorem State.setFb_inputs (s : State) (f : Framebuffer) : (s.setFb f).inputs = s.inputs := rfl
@[simp] theorem State.setFb_stepNo (s : State) (f : Framebuffer) : (s.setFb f).stepNo = s.stepNo := rfl
@[simp] theorem State.setFb_cfg (s : State) (f : Framebuffer) : (s.setFb f).cfg = s.cfg := rfl

/-! apply -/

@[simp] theorem State.apply_v (s : State) (d : Directive) : (s.apply d).v = s.v := by cases d <;> rfl
@[simp] theorem State.apply_ireg (s : State) (d : Directive) : (s.apply d).ireg = s.ireg := by cases d <;> rfl
@[simp] theorem State.apply_sp (s : State) (d : Directive) : (s.apply d).sp = s.sp := by cases d <;> rfl
@[simp] theorem State.apply_stack (s : State) (d : Directive) : (s.apply d).stack = s.stack := by cases d <;> rfl
@[simp] theorem State.apply_dt (s : State) (d : Directive) : (s.apply d).dt = s.dt := by cases d <;> rfl
@[simp] theorem State.apply_st (s : State) (d : Directive) : (s.apply d).st = s.st := by cases d <;> rfl
@[simp] theorem State.apply_cyc (s : State) (d : Directive) : (s.apply d).cyc = s.cyc := by cases d <;> rfl
@[simp] theorem State.apply_fb (s : State) (d : Directive) : (s.apply d).fb = s.fb := by cases d <;> rfl
@[simp] theorem State.apply_dirty (s : State) (d : Directive) : (s.apply d).dirty = s.dirty := by cases d <;> rfl
@[simp] theorem State.apply_keys (s : State) (d : Directive) : (s.apply d).keys = s.keys := by cases d <;> rfl
@[simp] theorem State.apply_wait (s : State) (d : Directive) : (s.apply d).wait = s.wait := by cases d <;> rfl
@[simp] theorem State.apply_fault (s : State) (d : Directive) : (s.apply d).fault = s.fault := by cases d <;> rfl
@[simp] theorem State.apply_mem (s : State) (d : Directive) : (s.apply d).mem = s.mem := by cases d <;> rfl
@[simp] theorem State.apply_rand (s : State) (d : Directive) : (s.apply d).rand = s.rand := by cases d <;> rfl
@[simp] theorem State.apply_inputs (s : State) (d : Directive) : (s.apply d).inputs = s.inputs := by cases d <;> rfl
@[simp] theorem State.apply_stepNo (s : State) (d : Directive) : (s.apply d).stepNo = s.stepNo := by cases d <;> rfl
@[simp] theorem State.apply_cfg (s : State) (d : Directive) : (s.apply d).cfg = s.cfg := by cases d <;> rfl
@[simp] theorem State.apply_next_pc (s : State) : (s.apply .next).pc = s.pc + 2 := rfl
@[simp] theorem State.apply_skip_pc (s : State) : (s.apply .skip).pc = s.pc + 4 := rfl
@[simp] theorem State.apply_jump_pc (s : State) (t : Word) : (s.apply (.jump t)).pc = t := rfl
@[simp] theorem State.apply_skipIf_pc (s : State) (c : Bool) :
    (s.apply (.skipIf c)).pc = if c then s.pc + 4 else s.pc + 2 := by cases c <;> rfl

/-! latch -/

@[simp] theorem State.latch_v (s : State) : s.latch.v = s.v := rfl
@[simp] theorem State.latch_ireg (s : State) : s.latch.ireg = s.ireg := rfl
@[simp] theorem State.latch_pc (s : State) : s.latch.pc = s.pc := rfl
@[simp] theorem State.latch_sp (s : State) : s.latch.sp = s.sp := rfl
@[simp] theorem State.latch_stack (s : State) : s.latch.stack = s.stack := rfl
@[simp] theorem State.latch_dt (s : State) : s.latch.dt = s.dt := rfl
@[simp] theorem State.latch_st (s : State) : s.latch.st = s.st := rfl
@[simp] theorem State.latch_cyc (s : State) : s.latch.cyc = if s.counted then s.cyc + 1 else s.cyc := rfl
@[simp] theorem State.latch_fb (s : State) : s.latch.fb = s.fb := rfl
@[simp] theorem State.latch_dirty (s : State) : s.latch.dirty = false := rfl
@[simp] theorem State.latch_keys (s : State) : s.latch.keys = s.nextInput.keys := rfl
@[simp] theorem State.latch_wait (s : State) : s.latch.wait = s.wait := rfl
@[simp] theorem State.latch_fault (s : State) : s.latch.fault = s.fault := rfl
@[simp] theorem State.latch_mem (s : State) : s.latch.mem = s.mem := rfl
@[simp] theorem State.latch_rand (s : State) : s.latch.rand = s.nextInput.r := rfl
@[simp] theorem State.latch_inputs (s : State) : s.latch.inputs = s.inputs.tail := rfl
@[simp] theorem State.latch_stepNo (s : State) : s.latch.stepNo = s.stepNo + 1 := rfl
@[simp] theorem State.latch_cfg (s : State) : s.latch.cfg = s.cfg := rfl

/-! tick -/

@[simp] theorem State.tick_v (s : State) : s.tick.v = s.v := by unfold State.tick; split <;> rfl
@[simp] theorem State.tick_ireg (s : State) : s.tick.ireg = s.ireg := by unfold State.tick; split <;> rfl
@[simp] theorem State.tick_pc (s : State) : s.tick.pc = s.pc := by unfold State.tick; split <;> rfl
@[simp] theorem State.tick_sp (s : State) : s.tick.sp = s.sp := by unfold State.tick; split <;> rfl
@[simp] theorem State.tick_stack (s : State) : s.tick.stack = s.stack := by unfold State.tick; split <;> rfl
@[simp] theorem State.tick_dt (s : State) : s.tick.dt = if s.cyc = 0 then countDown s.dt else s.dt := by
  unfold State.tick; split <;> rfl
@[simp] theorem State.tick_st (s : State) : s.tick.st = if s.cyc = 0 then countDown s.st else s.st := by
  unfold State.tick; split <;> rfl
@[simp] theorem State.tick_cyc (s : State) : s.tick.cyc = s.cyc := by unfold State.tick; split <;> rfl
@[simp] theorem State.tick_fb (s : State) : s.tick.fb = s.fb := by unfold State.tick; split <;> rfl
@[simp] theorem State.tick_dirty (s : State) : s.tick.dirty = s.dirty := by unfold State.tick; split <;> rfl
@[simp] theorem State.tick_keys (s : State) : s.tick.keys = s.keys := by unfold State.tick; split <;> rfl
@[simp] theorem State.tick_wait (s : State) : s.tick.wait = s.wait := by unfold State.tick; split <;> rfl
@[simp] theorem State.tick_fault (s : State) : s.tick.fault = s.fault := by unfold State.tick; split <;> rfl
@[simp] theorem State.tick_mem (s : State) : s.tick.mem = s.mem := by unfold State.tick; split <;> rfl
@[simp] theorem State.tick_rand (s : State) : s.tick.rand = s.rand := by unfold State.tick; split <;> rfl
@[simp] theorem State.tick_inputs (s : State) : s.tick.inputs = s.inputs := by unfold State.tick; split <;> rfl
@[simp] theorem State.tick_stepNo (s : State) : s.tick.stepNo = s.stepNo := by unfold State.tick; split <;> rfl
@[simp] theorem State.tick_cfg (s : State) : s.tick.cfg = s.cfg := by unfold State.tick; split <;> rfl

/-! raise: the fields a fatal condition fixes -/

@[simp] theorem raise_fault (f : Fatal) (s : State) : (raise f s).fault = some f := rfl
@[simp] theorem raise_inputs (f : Fatal) (s : State) : (raise f s).inputs = s.inputs := rfl
@[simp] theorem raise_stepNo (f : Fatal) (s : State) : (raise f s).stepNo = s.stepNo := rfl
@[simp] theorem raise_cfg (f : Fatal) (s : State) : (raise f s).cfg = s.cfg := rfl

/-! General registers: reading after a write. -/

theorem State.reg_setReg (s : State) (x j : RegIx) (b : Byte) :
    (s.setReg x b).reg j = if j = x then b else s.reg j := by
  unfold State.reg State.setReg
  simp only [Vector.get_eq_getElem, Vector.getElem_set, Fin.ext_iff]
  by_cases h : x.val = j.val
  · simp [h]
  · simp [h, Ne.symm h]

@[simp] theorem State.reg_setReg_self (s : State) (x : RegIx) (b : Byte) :
    (s.setReg x b).reg x = b := by simp [State.reg_setReg]

theorem State.reg_setReg_ne (s : State) {x j : RegIx} (b : Byte) (h : j ≠ x) :
    (s.setReg x b).reg j = s.reg j := by simp [State.reg_setReg, h]

@[simp] theorem State.reg_loadRegs (s : State) (bs : List Byte) (j : RegIx) :
    (s.loadRegs bs).reg j = bs.getD j.val (s.reg j) := by
  simp [State.reg, State.loadRegs, Vector.get_eq_getElem]

@[simp] theorem State.reg_setIreg (s : State) (w : Word) (j : RegIx) : (s.setIreg w).reg j = s.reg j := rfl
@[simp] theorem State.reg_setDt (s : State) (b : Byte) (j : RegIx) : (s.setDt b).reg j = s.reg j := rfl
@[simp] theorem State.reg_setSt (s : State) (b : Byte) (j : RegIx) : (s.setSt b).reg j = s.reg j := rfl
@[simp] theorem State.reg_setWait (s : State) (w : Wait) (j : RegIx) : (s.setWait w).reg j = s.reg j := rfl
@[simp] theorem State.reg_setMem (s : State) (m : Memory) (j : RegIx) : (s.setMem m).reg j = s.reg j := rfl
@[simp] theorem State.reg_setFb (s : State) (f : Framebuffer) (j : RegIx) : (s.setFb f).reg j = s.reg j := rfl
@[simp] theorem State.reg_apply (s : State) (d : Directive) (j : RegIx) : (s.apply d).reg j = s.reg j := by cases d <;> rfl
@[simp] theorem State.reg_latch (s : State) (j : RegIx) : s.latch.reg j = s.reg j := rfl
@[simp] theorem State.reg_tick (s : State) (j : RegIx) : s.tick.reg j = s.reg j := by simp [State.reg]

theorem State.regsUpTo_length (s : State) (x : RegIx) : (s.regsUpTo x).length = x.val + 1 := by
  simp [State.regsUpTo]

theorem State.regsUpTo_getElem (s : State) (x : RegIx) (k : Nat) (h : k < (s.regsUpTo x).length)
    (hk : k < 16) : (s.regsUpTo x)[k] = s.reg ⟨k, hk⟩ := by
  simp [State.regsUpTo, State.reg, Vector.get_eq_getElem]

end Sys2Proof.Machine
end

