-- ==== Sys2Proof/Laws/Ops.lean ====
section
/-!
SUPPORT. Laws/Ops.lean: one lemma for each shared operation that says once what it can do.
-/

namespace Sys2Proof.Machine

/-! Fatal entry and the end of a handler. -/

/-- The memory a fatal condition leaves is canonical. -/
theorem raise_mem_wf (f : Fatal) (s : State) : (raise f s).mem.wf := Memory.canon_wf _

/-- What a handler that answers a next state did: its statements ran to the end, or they raised. -/
theorem finish_cases {s t : State} {r : Run State} (h : finish s r = .next t) :
    r = .ok t ∨ ∃ f, r = .error (.fatal f) ∧ t = raise f s := by
  match r, h with
  | .ok _, h => cases h; exact .inl rfl
  | .error (.fatal f), h => cases h; exact .inr ⟨f, rfl, rfl⟩

@[simp] theorem finish_ok (s t : State) : finish s (.ok t) = .next t := rfl
@[simp] theorem finish_fatal (s : State) (f : Fatal) :
    finish s (.error (.fatal f)) = .next (raise f s) := rfl
@[simp] theorem finish_fault (s : State) (r : Fault) : finish s (.error (.fault r)) = .fault r := rfl

@[simp] theorem map_ok {α β : Type} (a : α) (f : α → β) :
    (Except.ok a : Run α).map f = .ok (f a) := rfl
@[simp] theorem map_error {α β : Type} (e : Stop) (f : α → β) :
    (Except.error e : Run α).map f = .error e := rfl

/-- A handler that ends by applying a directive, seen from its answer. -/
theorem finish_map_cases {α : Type} {s t : State} {r : Run α} {f : α → State}
    (h : finish s (r.map f) = .next t) :
    (∃ a, r = .ok a ∧ t = f a) ∨ ∃ e, r = .error (.fatal e) ∧ t = raise e s := by
  match r, h with
  | .ok a, h => cases h; exact .inl ⟨a, rfl, rfl⟩
  | .error (.fatal e), h => cases h; exact .inr ⟨e, rfl, rfl⟩

/-! Memory accesses. -/

theorem State.load_ok (s : State) {a : Nat} (h : a ≤ 0xFFF) : s.load a = .ok (s.mem.get a) := by
  simp [State.load, h]

theorem State.load_error (s : State) {a : Nat} (h : 0xFFF < a) :
    s.load a = .error (.fatal (.memoryOutOfRange s.pc a)) := by
  simp [State.load, show ¬a ≤ 0xFFF by omega]

theorem State.store_ok (s : State) {a : Nat} (h : a ≤ 0xFFF) (b : Byte) :
    s.store a b = .ok (s.setMem (s.mem.set a b)) := by
  simp [State.store, h]

theorem State.store_error (s : State) {a : Nat} (h : 0xFFF < a) (b : Byte) :
    s.store a b = .error (.fatal (.memoryOutOfRange s.pc a)) := by
  simp [State.store, show ¬a ≤ 0xFFF by omega]

/-- A multi-byte read inside the address space gives the bytes in rising order. -/
theorem State.loadList_ok (s : State) (n a : Nat) (h : ∀ k < n, a + k ≤ 0xFFF) :
    s.loadList a n = .ok ((List.range n).map fun k => s.mem.get (a + k)) := by
  induction n generalizing a with
  | zero => rfl
  | succ n ih =>
    have h0 := h 0 (by omega)
    rw [State.loadList, s.load_ok (by omega), ih (a + 1) fun k hk => by have := h (k + 1) (by omega); omega]
    simp [List.range_succ_eq_map, List.map_map, Function.comp_def, Nat.add_assoc, Nat.add_comm 1]

/-- A multi-byte read that leaves the address space reports its first address outside (R322). -/
theorem State.loadList_error (s : State) (n a k : Nat) (hk : k < n) (hout : 0xFFF < a + k)
    (hin : ∀ j < k, a + j ≤ 0xFFF) :
    s.loadList a n = .error (.fatal (.memoryOutOfRange s.pc (a + k))) := by
  induction k generalizing a n with
  | zero =>
    obtain ⟨n, rfl⟩ : ∃ m, n = m + 1 := ⟨n - 1, by omega⟩
    rw [State.loadList, s.load_error (by omega)]
    rfl
  | succ k ih =>
    obtain ⟨n, rfl⟩ : ∃ m, n = m + 1 := ⟨n - 1, by omega⟩
    have h0 := hin 0 (by omega)
    rw [State.loadList, s.load_ok (by omega), ih n (a + 1) (by omega) (by omega) fun j hj => by
      have := hin (j + 1) (by omega); omega]
    simp [Nat.add_assoc, Nat.add_comm 1]

/-- What a multi-byte read answers in any case. -/
theorem State.loadList_cases (s : State) (n a : Nat) :
    ((∀ k < n, a + k ≤ 0xFFF) ∧ s.loadList a n = .ok ((List.range n).map fun k => s.mem.get (a + k))) ∨
    ∃ k < n, 0xFFF < a + k ∧ (∀ j < k, a + j ≤ 0xFFF) ∧
      s.loadList a n = .error (.fatal (.memoryOutOfRange s.pc (a + k))) := by
  by_cases h : ∀ k < n, a + k ≤ 0xFFF
  · exact .inl ⟨h, s.loadList_ok n a h⟩
  · have hex : ∃ k, k < n ∧ 0xFFF < a + k := by push Not at h; exact h
    have hspec := Nat.find_spec hex
    have hmin : ∀ j < Nat.find hex, a + j ≤ 0xFFF := fun j hj => by
      by_contra hc
      exact Nat.find_min hex hj ⟨by omega, by omega⟩
    exact .inr ⟨_, hspec.1, hspec.2, hmin, s.loadList_error n a _ hspec.1 hspec.2 hmin⟩

/-- A multi-byte write inside the address space writes memory and nothing else. -/
theorem State.storeList_ok (bs : List Byte) (s : State) (a : Nat) (h : ∀ k < bs.length, a + k ≤ 0xFFF) :
    s.storeList a bs = .ok (s.setMem (s.mem.setList a bs)) := by
  induction bs generalizing s a with
  | nil => rfl
  | cons b bs ih =>
    have h0 := h 0 (by simp)
    rw [State.storeList, s.store_ok (by omega)]
    exact ih _ (a + 1) fun k hk => by have := h (k + 1) (by simpa using hk); omega

/-- A multi-byte write that leaves the address space reports its first address outside (R322). -/
theorem State.storeList_error (bs : List Byte) (s : State) (a k : Nat) (hk : k < bs.length)
    (hout : 0xFFF < a + k) (hin : ∀ j < k, a + j ≤ 0xFFF) :
    s.storeList a bs = .error (.fatal (.memoryOutOfRange s.pc (a + k))) := by
  induction bs generalizing s a k with
  | nil => simp at hk
  | cons b bs ih =>
    cases k with
    | zero => rw [State.storeList, s.store_error (by omega)]; rfl
    | succ k =>
      have h0 := hin 0 (by omega)
      rw [State.storeList, s.store_ok (by omega)]
      have := ih (s.setMem (s.mem.set a b)) (a + 1) k (by simpa using hk) (by omega) fun j hj => by
        have := hin (j + 1) (by omega); omega
      simpa [Nat.add_assoc, Nat.add_comm 1] using this

/-- What a multi-byte write answers in any case. -/
theorem State.storeList_cases (bs : List Byte) (s : State) (a : Nat) :
    ((∀ k < bs.length, a + k ≤ 0xFFF) ∧ s.storeList a bs = .ok (s.setMem (s.mem.setList a bs))) ∨
    ∃ k < bs.length, 0xFFF < a + k ∧ (∀ j < k, a + j ≤ 0xFFF) ∧
      s.storeList a bs = .error (.fatal (.memoryOutOfRange s.pc (a + k))) := by
  by_cases h : ∀ k < bs.length, a + k ≤ 0xFFF
  · exact .inl ⟨h, s.storeList_ok bs a h⟩
  · have hex : ∃ k, k < bs.length ∧ 0xFFF < a + k := by push Not at h; exact h
    have hspec := Nat.find_spec hex
    have hmin : ∀ j < Nat.find hex, a + j ≤ 0xFFF := fun j hj => by
      by_contra hc
      exact Nat.find_min hex hj ⟨by omega, by omega⟩
    exact .inr ⟨_, hspec.1, hspec.2, hmin, s.storeList_error bs a _ hspec.1 hspec.2 hmin⟩

/-! The stack. -/

/-- What a push answers (R190). -/
theorem State.push_cases (s : State) (w : Word) :
    (∃ h : s.sp.toNat < 16, s.push w =
      .ok { s with stack := s.stack.set s.sp.toNat w h, sp := s.sp + 1 }) ∨
    (s.sp = 16 ∧ s.push w = .error (.fatal (.stackOverflow s.pc))) ∨
    (16 < s.sp.toNat ∧ s.push w = .error (.fault .stackIndexOutOfRange)) := by
  by_cases h : s.sp.toNat < 16
  · exact .inl ⟨h, by simp [State.push, h]⟩
  · by_cases h16 : s.sp = 16
    · exact .inr (.inl ⟨h16, by simp [State.push, h16]⟩)
    · refine .inr (.inr ⟨?_, by rw [State.push, dif_neg h, if_neg h16]⟩)
      have : s.sp.toNat ≠ 16 := fun e => h16 (BitVec.eq_of_toNat_eq e)
      omega

/-- What a pop answers (R191). -/
theorem State.pop_cases (s : State) :
    (s.sp = 0 ∧ s.pop = .error (.fatal (.stackUnderflow s.pc))) ∨
    (∃ h : s.sp.toNat - 1 < 16, 0 < s.sp.toNat ∧
      s.pop = .ok (s.stack.get ⟨s.sp.toNat - 1, h⟩, { s with sp := s.sp - 1 })) ∨
    (16 < s.sp.toNat ∧ s.pop = .error (.fault .stackIndexOutOfRange)) := by
  by_cases h0 : s.sp = 0
  · exact .inl ⟨h0, by simp [State.pop, h0]⟩
  · have hpos : 0 < s.sp.toNat := by
      rcases Nat.eq_zero_or_pos s.sp.toNat with h | h
      · exact absurd (BitVec.eq_of_toNat_eq h) h0
      · exact h
    by_cases h : s.sp.toNat - 1 < 16
    · exact .inr (.inl ⟨h, hpos, by rw [State.pop, if_neg h0, dif_pos h]; rfl⟩)
    · exact .inr (.inr ⟨by omega, by rw [State.pop, if_neg h0, dif_neg h]⟩)

/-! Keys. -/

/-- What `Key(k)` answers (R15). -/
theorem State.key_cases (s : State) (k : Byte) :
    (∃ h : k.toNat < 16, s.key k = .ok (s.keys.get ⟨k.toNat, h⟩)) ∨
    (15 < k.toNat ∧ s.key k = .error (.fatal (.keyIndexOutOfRange s.pc k))) := by
  by_cases h : k.toNat < 16
  · exact .inl ⟨h, by simp [State.key, h]⟩
  · exact .inr ⟨by omega, by simp [State.key, h]⟩

/-- The index sum of Fx1E (R261). -/
theorem State.indexSum_cases (s : State) (x : RegIx) :
    (s.ireg.toNat + (s.reg x).toNat ≤ 0xFFFF ∧ s.indexSum x = .ok (s.ireg + zextByte (s.reg x))) ∨
    (0xFFFF < s.ireg.toNat + (s.reg x).toNat ∧ s.indexSum x =
      .error (.fatal (.iOverflow s.pc (s.ireg.toNat + (s.reg x).toNat)))) := by
  by_cases h : s.ireg.toNat + (s.reg x).toNat ≤ 0xFFFF
  · exact .inl ⟨h, by simp [State.indexSum, h]⟩
  · exact .inr ⟨by omega, by simp [State.indexSum, h]⟩

/-- The lowest pressed key is pressed, and no lower one is. -/
theorem lowestKey_some {k : Keys} {j : RegIx} (h : lowestKey k = some j) :
    k.get j = true ∧ ∀ i < j, k.get i = false := by
  obtain ⟨hj, as, bs, hl, has⟩ := List.find?_eq_some_iff_append.mp h
  refine ⟨by simpa using hj, fun i hi => ?_⟩
  have hs : (as ++ j :: bs).Pairwise (· < ·) := hl ▸ List.pairwise_lt_finRange 16
  have hmem : i ∈ as ++ j :: bs := hl ▸ List.mem_finRange i
  have hb := (List.pairwise_cons.mp (List.pairwise_append.mp hs).2.1).1
  rcases List.mem_append.mp hmem with hm | hm
  · simpa using has i hm
  · rcases List.mem_cons.mp hm with rfl | hm
    · exact absurd hi (lt_irrefl _)
    · exact absurd (hb i hm) (not_lt.mpr hi.le)

/-- With no lowest pressed key, no key is pressed. -/
theorem lowestKey_none {k : Keys} (h : lowestKey k = none) (j : RegIx) : k.get j = false := by
  have := List.find?_eq_none.mp h j (List.mem_finRange j)
  simpa using this

/-! The framebuffer. -/

/-- A pixel after one XOR. -/
theorem Framebuffer.at_xorAt (f : Framebuffer) (px qx : Fin 64) (py qy : Fin 32) (p : Bool) :
    (f.xorAt px py p).at qx qy = if qx = px ∧ qy = py then (f.at px py ^^ p) else f.at qx qy := by
  unfold Framebuffer.xorAt Framebuffer.at
  simp only [Vector.get_eq_getElem, Vector.getElem_set, Fin.ext_iff]
  by_cases hx : px.val = qx.val
  · by_cases hy : py.val = qy.val
    · simp [hx, hy]
    · simp [hx, hy, Ne.symm hy]
  · simp [hx, Ne.symm hx]

@[simp] theorem Framebuffer.at_blank (px : Fin 64) (py : Fin 32) : Framebuffer.blank.at px py = false := by
  simp [Framebuffer.blank, Framebuffer.at, Vector.get_eq_getElem]

/-- Two framebuffers with the same pixels are equal. -/
theorem Framebuffer.ext_at {f g : Framebuffer} (h : ∀ px py, f.at px py = g.at px py) : f = g := by
  refine Vector.ext fun i hi => Vector.ext fun j hj => ?_
  simpa [Framebuffer.at, Vector.get_eq_getElem] using h ⟨i, hi⟩ ⟨j, hj⟩

end Sys2Proof.Machine
end

