-- ==== Sys2Proof/Laws/Draw.lean ====
section
/-!
SUPPORT. Laws/Draw.lean: what the two loops of Dxyn leave in the framebuffer and in the collision
accumulator.
-/

namespace Sys2Proof.Machine

/-- Two columns of one sprite row never meet the same pixel column, since 8 is less than 64. -/
theorem wrapX_inj (x0 : Byte) {c d : Nat} (hc : c < 8) (hd : d < 8) (h : wrapX x0 c = wrapX x0 d) :
    c = d := by
  have := congrArg Fin.val h
  simp only [wrapX, Fin.val_ofNat] at this
  omega

/-- Two rows of one sprite never meet the same pixel row, since 15 is less than 32. -/
theorem wrapY_inj (y0 : Byte) {r q : Nat} (hr : r < 16) (hq : q < 16) (h : wrapY y0 r = wrapY y0 q) :
    r = q := by
  have := congrArg Fin.val h
  simp only [wrapY, Fin.val_ofNat] at this
  omega

/-- The inner loop: a pixel is inverted exactly where the row's bit for it is 1, and the accumulator
takes up a set pixel met there. -/
theorem drawCols_spec (x0 : Byte) (py : Fin 32) (b : Byte) (cols : List Nat) (hn : cols.Nodup)
    (h8 : ∀ c ∈ cols, c < 8) (f : Framebuffer) (a : Bool) :
    (∀ px qy, (drawCols x0 py b cols (f, a)).1.at px qy =
      (f.at px qy ^^ decide (qy = py ∧ ∃ c ∈ cols, wrapX x0 c = px ∧ spriteBit b c = true))) ∧
    ((drawCols x0 py b cols (f, a)).2 = true ↔
      a = true ∨ ∃ c ∈ cols, spriteBit b c = true ∧ f.at (wrapX x0 c) py = true) := by
  induction cols generalizing f a with
  | nil => simp [drawCols]
  | cons col cols ih =>
    obtain ⟨hnot, hn⟩ := List.nodup_cons.mp hn
    have hne : ∀ c ∈ cols, wrapX x0 c ≠ wrapX x0 col := fun c hc e =>
      hnot (wrapX_inj x0 (h8 c (by simp [hc])) (h8 col (by simp)) e ▸ hc)
    obtain ⟨i1, i2⟩ := ih hn (fun c hc => h8 c (by simp [hc])) (f.xorAt (wrapX x0 col) py (spriteBit b col))
      (a || (spriteBit b col && f.at (wrapX x0 col) py))
    constructor
    · intro px qy
      rw [drawCols, i1, Framebuffer.at_xorAt]
      by_cases hq : qy = py
      · subst hq
        by_cases hx : px = wrapX x0 col
        · subst hx
          have : ¬∃ c ∈ cols, wrapX x0 c = wrapX x0 col ∧ spriteBit b c = true :=
            fun ⟨c, hc, e, _⟩ => hne c hc e
          simp [this]
        · simp [hx, Ne.symm hx]
      · simp [hq]
    · rw [drawCols, i2]
      have : ∀ c ∈ cols, (f.xorAt (wrapX x0 col) py (spriteBit b col)).at (wrapX x0 c) py =
          f.at (wrapX x0 c) py := fun c hc => by
        rw [Framebuffer.at_xorAt, if_neg fun e => hne c hc e.1]
      simp only [List.mem_cons, Bool.or_eq_true, Bool.and_eq_true, exists_eq_or_imp, or_assoc]
      constructor
      · rintro (h | h | ⟨c, hc, h1, h2⟩)
        · exact .inl h
        · exact .inr (.inl h)
        · exact .inr (.inr ⟨c, hc, h1, this c hc ▸ h2⟩)
      · rintro (h | h | ⟨c, hc, h1, h2⟩)
        · exact .inl h
        · exact .inr (.inl h)
        · exact .inr (.inr ⟨c, hc, h1, (this c hc).symm ▸ h2⟩)

/-- A pixel is one the sprite rows `bs`, the first of them numbered `row`, draw with bit 1. -/
def Covered (x0 y0 : Byte) (row : Nat) (bs : List Byte) (px : Fin 64) (py : Fin 32) : Prop :=
  ∃ k < bs.length, ∃ c < 8, wrapX x0 c = px ∧ wrapY y0 (row + k) = py ∧ spriteBit (bs.getD k 0) c = true

theorem covered_nil (x0 y0 : Byte) (row : Nat) (px : Fin 64) (py : Fin 32) :
    ¬Covered x0 y0 row [] px py := by
  simp [Covered]

theorem covered_cons (x0 y0 : Byte) (row : Nat) (b : Byte) (bs : List Byte) (px : Fin 64) (py : Fin 32) :
    Covered x0 y0 row (b :: bs) px py ↔
      (py = wrapY y0 row ∧ ∃ c ∈ spriteCols, wrapX x0 c = px ∧ spriteBit b c = true) ∨
      Covered x0 y0 (row + 1) bs px py := by
  have hmem : ∀ c, c ∈ spriteCols ↔ c < 8 := fun c => by
    simp only [spriteCols, List.mem_cons, List.not_mem_nil, or_false]
    omega
  simp only [hmem]
  constructor
  · rintro ⟨k, hk, c, hc, h1, h2, h3⟩
    cases k with
    | zero => exact .inl ⟨h2.symm, c, hc, h1, by simpa using h3⟩
    | succ k =>
      exact .inr ⟨k, by simpa using hk, c, hc, h1, by rw [← h2]; congr 1; omega, by simpa using h3⟩
  · rintro (⟨h2, c, hc, h1, h3⟩ | ⟨k, hk, c, hc, h1, h2, h3⟩)
    · exact ⟨0, by simp, c, hc, h1, h2.symm, by simpa using h3⟩
    · exact ⟨k + 1, by simpa using hk, c, hc, h1, by rw [← h2]; congr 1; omega, by simpa using h3⟩

open Classical in
/-- The outer loop: a pixel is inverted exactly where the sprite covers it, and the accumulator takes
up a set pixel met there. -/
theorem drawRows_spec (x0 y0 : Byte) (bs : List Byte) (row : Nat) (hr : row + bs.length ≤ 16)
    (f : Framebuffer) (a : Bool) :
    (∀ px py, (drawRows x0 y0 row bs (f, a)).1.at px py =
      (f.at px py ^^ decide (Covered x0 y0 row bs px py))) ∧
    ((drawRows x0 y0 row bs (f, a)).2 = true ↔
      a = true ∨ ∃ px py, Covered x0 y0 row bs px py ∧ f.at px py = true) := by
  induction bs generalizing row f a with
  | nil => simp [drawRows, covered_nil]
  | cons b bs ih =>
    simp only [List.length_cons] at hr
    obtain ⟨c1, c2⟩ := drawCols_spec x0 (wrapY y0 row) b spriteCols (by decide) (by decide) f a
    obtain ⟨i1, i2⟩ := ih (row + 1) (by omega) (drawCols x0 (wrapY y0 row) b spriteCols (f, a)).1
      (drawCols x0 (wrapY y0 row) b spriteCols (f, a)).2
    have hfar : ∀ px py, Covered x0 y0 (row + 1) bs px py → py ≠ wrapY y0 row := by
      rintro px py ⟨k, hk, -, -, -, h2, -⟩ e
      have := wrapY_inj y0 (by omega) (by omega) (h2.trans e)
      omega
    constructor
    · intro px py
      rw [drawRows, i1, c1]
      by_cases hc : Covered x0 y0 (row + 1) bs px py
      · simp [covered_cons, hc, hfar px py hc]
      · simp [covered_cons, hc]
    · rw [drawRows, i2, c2]
      constructor
      · rintro ((h | ⟨c, hc, h1, h2⟩) | ⟨px, py, h1, h2⟩)
        · exact .inl h
        · exact .inr ⟨_, _, (covered_cons ..).mpr (.inl ⟨rfl, c, hc, rfl, h1⟩), h2⟩
        · rw [c1] at h2
          exact .inr ⟨px, py, (covered_cons ..).mpr (.inr h1), by simpa [hfar px py h1] using h2⟩
      · rintro (h | ⟨px, py, h1, h2⟩)
        · exact .inl (.inl h)
        · rcases (covered_cons ..).mp h1 with ⟨rfl, c, hc, rfl, h3⟩ | h1
          · exact .inl (.inr ⟨c, hc, h3, h2⟩)
          · exact .inr ⟨px, py, h1, by rw [c1]; simpa [hfar px py h1] using h2⟩

end Sys2Proof.Machine
end

