-- ==== Sys2Proof/Laws/Encode.lean ====
section
/-!
SUPPORT. Laws/Encode.lean: the encoder's words as numbers, so that a claim about fields is arithmetic.
-/

namespace Sys2Proof

/-- A concatenation as a number, the left part in the high bits (R12). -/
theorem append_toNat {m n : Nat} (a : BitVec m) (b : BitVec n) :
    (a ++ b).toNat = a.toNat * 2 ^ n + b.toNat := by
  rw [BitVec.toNat_append, ← Nat.shiftLeft_add_eq_or_of_lt b.isLt, Nat.shiftLeft_eq]

theorem wordOf_toNat (hi lo : Byte) : (wordOf hi lo).toNat = hi.toNat * 0x100 + lo.toNat :=
  append_toNat hi lo

theorem wordNNN_toNat (op : BitVec 4) (nnn : Addr) :
    (wordNNN op nnn).toNat = op.toNat * 0x1000 + nnn.toNat :=
  append_toNat op nnn

theorem wordXKK_toNat (op : BitVec 4) (x : RegIx) (kk : Byte) :
    (wordXKK op x kk).toNat = op.toNat * 0x1000 + x.val * 0x100 + kk.toNat := by
  refine (append_toNat (op ++ BitVec.ofFin (w := 4) x) kk).trans ?_
  simp only [append_toNat, BitVec.toNat_ofFin]
  omega

theorem wordXYN_toNat (op : BitVec 4) (x y : RegIx) (n : BitVec 4) :
    (wordXYN op x y n).toNat = op.toNat * 0x1000 + x.val * 0x100 + y.val * 0x10 + n.toNat := by
  refine (append_toNat (op ++ BitVec.ofFin (w := 4) x ++ BitVec.ofFin (w := 4) y) n).trans ?_
  simp only [append_toNat, BitVec.toNat_ofFin]
  omega

theorem hiByte_toNat (w : Word) : (hiByte w).toNat = w.toNat / 0x100 := by
  have := w.isLt
  simp only [hiByte, BitVec.extractLsb'_toNat, Nat.shiftRight_eq_div_pow]
  omega

theorem loByte_toNat (w : Word) : (loByte w).toNat = w.toNat % 0x100 := by
  simp [loByte, BitVec.extractLsb'_toNat]

/-- Laying a word out as two bytes and reading it back gives the word. -/
theorem wordOf_bytes (w : Word) : wordOf (hiByte w) (loByte w) = w := by
  apply BitVec.eq_of_toNat_eq
  rw [wordOf_toNat, hiByte_toNat, loByte_toNat]
  omega

end Sys2Proof
end

