-- ==== Sys2Proof/Laws/PerInstr.lean ====
section
/-!
SUPPORT. Laws/PerInstr.lean: statements about every instruction as syntax, one lemma per constructor.
-/

namespace Sys2Proof.Laws.EncodesItsRow

/-- The `mask` column of the opcode map (spec/30_encoding.md R113): the bits the row fixes. -/
def rowMask : Instr → Word
  | .cls => 0xFFFF#16
  | .ret => 0xFFFF#16
  | .sys _ => 0xF000#16
  | .jp _ => 0xF000#16
  | .call _ => 0xF000#16
  | .seImm _ _ => 0xF000#16
  | .sneImm _ _ => 0xF000#16
  | .seReg _ _ => 0xF00F#16
  | .ldImm _ _ => 0xF000#16
  | .addImm _ _ => 0xF000#16
  | .ldReg _ _ => 0xF00F#16
  | .orReg _ _ => 0xF00F#16
  | .andReg _ _ => 0xF00F#16
  | .xorReg _ _ => 0xF00F#16
  | .addReg _ _ => 0xF00F#16
  | .sub _ _ => 0xF00F#16
  | .shr _ _ => 0xF00F#16
  | .subn _ _ => 0xF00F#16
  | .shl _ _ => 0xF00F#16
  | .sneReg _ _ => 0xF00F#16
  | .ldI _ => 0xF000#16
  | .jpV0 _ => 0xF000#16
  | .rnd _ _ => 0xF000#16
  | .drw _ _ _ => 0xF000#16
  | .skp _ => 0xF0FF#16
  | .sknp _ => 0xF0FF#16
  | .ldVxDt _ => 0xF0FF#16
  | .ldVxK _ => 0xF0FF#16
  | .ldDtVx _ => 0xF0FF#16
  | .ldStVx _ => 0xF0FF#16
  | .addIVx _ => 0xF0FF#16
  | .ldFVx _ => 0xF0FF#16
  | .ldBVx _ => 0xF0FF#16
  | .ldMemVx _ => 0xF0FF#16
  | .ldVxMem _ => 0xF0FF#16

/-- The `match` column of the opcode map (R113): the values of those bits. -/
def rowMatch : Instr → Word
  | .cls => 0x00E0#16
  | .ret => 0x00EE#16
  | .sys _ => 0x0000#16
  | .jp _ => 0x1000#16
  | .call _ => 0x2000#16
  | .seImm _ _ => 0x3000#16
  | .sneImm _ _ => 0x4000#16
  | .seReg _ _ => 0x5000#16
  | .ldImm _ _ => 0x6000#16
  | .addImm _ _ => 0x7000#16
  | .ldReg _ _ => 0x8000#16
  | .orReg _ _ => 0x8001#16
  | .andReg _ _ => 0x8002#16
  | .xorReg _ _ => 0x8003#16
  | .addReg _ _ => 0x8004#16
  | .sub _ _ => 0x8005#16
  | .shr _ _ => 0x8006#16
  | .subn _ _ => 0x8007#16
  | .shl _ _ => 0x800E#16
  | .sneReg _ _ => 0x9000#16
  | .ldI _ => 0xA000#16
  | .jpV0 _ => 0xB000#16
  | .rnd _ _ => 0xC000#16
  | .drw _ _ _ => 0xD000#16
  | .skp _ => 0xE09E#16
  | .sknp _ => 0xE0A1#16
  | .ldVxDt _ => 0xF007#16
  | .ldVxK _ => 0xF00A#16
  | .ldDtVx _ => 0xF015#16
  | .ldStVx _ => 0xF018#16
  | .addIVx _ => 0xF01E#16
  | .ldFVx _ => 0xF029#16
  | .ldBVx _ => 0xF033#16
  | .ldMemVx _ => 0xF055#16
  | .ldVxMem _ => 0xF065#16

/-- The word of an instruction has the fixed bits of its row. -/
def Statement (i : Instr) : Prop := encode i &&& rowMask i = rowMatch i

theorem and_nibble : ∀ a : BitVec 4, a &&& 15#4 = a := by decide

theorem and_byte : ∀ a : BitVec 8, a &&& 255#8 = a := by decide

theorem nnn_op (op : BitVec 4) (nnn : Addr) : wordNNN op nnn &&& 0xF000#16 = op ++ 0#12 := by
  rw [wordNNN, show 0xF000#16 = 0xF#4 ++ 0#12 from rfl, BitVec.and_append]
  simp [and_nibble]

theorem xkk_op (op : BitVec 4) (x : RegIx) (kk : Byte) : wordXKK op x kk &&& 0xF000#16 = op ++ 0#4 ++ 0#8 := by
  rw [wordXKK, show 0xF000#16 = 0xF#4 ++ 0#4 ++ 0#8 from rfl, BitVec.and_append, BitVec.and_append]
  simp [and_nibble]

theorem xkk_op_kk (op : BitVec 4) (x : RegIx) (kk : Byte) :
    wordXKK op x kk &&& 0xF0FF#16 = op ++ 0#4 ++ kk := by
  rw [wordXKK, show 0xF0FF#16 = 0xF#4 ++ 0#4 ++ 0xFF#8 from rfl, BitVec.and_append, BitVec.and_append]
  simp [and_nibble, and_byte]

theorem xyn_op (op : BitVec 4) (x y : RegIx) (n : BitVec 4) :
    wordXYN op x y n &&& 0xF000#16 = op ++ 0#4 ++ 0#4 ++ 0#4 := by
  rw [wordXYN, show 0xF000#16 = 0xF#4 ++ 0#4 ++ 0#4 ++ 0#4 from rfl, BitVec.and_append, BitVec.and_append, BitVec.and_append]
  simp [and_nibble]

theorem xyn_op_n (op : BitVec 4) (x y : RegIx) (n : BitVec 4) :
    wordXYN op x y n &&& 0xF00F#16 = op ++ 0#4 ++ 0#4 ++ n := by
  rw [wordXYN, show 0xF00F#16 = 0xF#4 ++ 0#4 ++ 0#4 ++ 0xF#4 from rfl, BitVec.and_append, BitVec.and_append, BitVec.and_append]
  simp [and_nibble]

theorem cls : Statement (.cls) := rfl
theorem ret : Statement (.ret) := rfl
theorem sys (nnn : Addr) : Statement (.sys nnn) := nnn_op _ nnn
theorem jp (nnn : Addr) : Statement (.jp nnn) := nnn_op _ nnn
theorem call (nnn : Addr) : Statement (.call nnn) := nnn_op _ nnn
theorem seImm (x : RegIx) (kk : Byte) : Statement (.seImm x kk) := xkk_op _ x kk
theorem sneImm (x : RegIx) (kk : Byte) : Statement (.sneImm x kk) := xkk_op _ x kk
theorem seReg (x y : RegIx) : Statement (.seReg x y) := xyn_op_n _ x y _
theorem ldImm (x : RegIx) (kk : Byte) : Statement (.ldImm x kk) := xkk_op _ x kk
theorem addImm (x : RegIx) (kk : Byte) : Statement (.addImm x kk) := xkk_op _ x kk
theorem ldReg (x y : RegIx) : Statement (.ldReg x y) := xyn_op_n _ x y _
theorem orReg (x y : RegIx) : Statement (.orReg x y) := xyn_op_n _ x y _
theorem andReg (x y : RegIx) : Statement (.andReg x y) := xyn_op_n _ x y _
theorem xorReg (x y : RegIx) : Statement (.xorReg x y) := xyn_op_n _ x y _
theorem addReg (x y : RegIx) : Statement (.addReg x y) := xyn_op_n _ x y _
theorem sub (x y : RegIx) : Statement (.sub x y) := xyn_op_n _ x y _
theorem shr (x y : RegIx) : Statement (.shr x y) := xyn_op_n _ x y _
theorem subn (x y : RegIx) : Statement (.subn x y) := xyn_op_n _ x y _
theorem shl (x y : RegIx) : Statement (.shl x y) := xyn_op_n _ x y _
theorem sneReg (x y : RegIx) : Statement (.sneReg x y) := xyn_op_n _ x y _
theorem ldI (nnn : Addr) : Statement (.ldI nnn) := nnn_op _ nnn
theorem jpV0 (nnn : Addr) : Statement (.jpV0 nnn) := nnn_op _ nnn
theorem rnd (x : RegIx) (kk : Byte) : Statement (.rnd x kk) := xkk_op _ x kk
theorem drw (x y : RegIx) (n : Rows) : Statement (.drw x y n) := xyn_op _ x y _
theorem skp (x : RegIx) : Statement (.skp x) := xkk_op_kk _ x _
theorem sknp (x : RegIx) : Statement (.sknp x) := xkk_op_kk _ x _
theorem ldVxDt (x : RegIx) : Statement (.ldVxDt x) := xkk_op_kk _ x _
theorem ldVxK (x : RegIx) : Statement (.ldVxK x) := xkk_op_kk _ x _
theorem ldDtVx (x : RegIx) : Statement (.ldDtVx x) := xkk_op_kk _ x _
theorem ldStVx (x : RegIx) : Statement (.ldStVx x) := xkk_op_kk _ x _
theorem addIVx (x : RegIx) : Statement (.addIVx x) := xkk_op_kk _ x _
theorem ldFVx (x : RegIx) : Statement (.ldFVx x) := xkk_op_kk _ x _
theorem ldBVx (x : RegIx) : Statement (.ldBVx x) := xkk_op_kk _ x _
theorem ldMemVx (x : RegIx) : Statement (.ldMemVx x) := xkk_op_kk _ x _
theorem ldVxMem (x : RegIx) : Statement (.ldVxMem x) := xkk_op_kk _ x _

end Sys2Proof.Laws.EncodesItsRow
end

