-- ==== Sys2Proof/Laws/Pieces.lean ====
section
/-!
SUPPORT. Laws/Pieces.lean: which pieces of state the lists of Safety.lean hold.
-/

namespace Sys2Proof.Machine

@[simp] theorem key_mem_keyPieces (k : Fin 16) : Piece.key k ∈ keyPieces := by
  simp [keyPieces]

/-- The list of keys holds keys only. -/
theorem mem_keyPieces (p : Piece) : p ∈ keyPieces ↔ ∃ k, Piece.key k = p := by
  simp [keyPieces]

@[simp] theorem reg_mem_regPieces (x j : RegIx) : Piece.reg j ∈ regPieces x ↔ j ≤ x := by
  simp only [regPieces, List.mem_filterMap, List.mem_finRange, true_and]
  constructor
  · rintro ⟨a, h⟩
    split at h
    · cases h
      assumption
    · cases h
  · exact fun h => ⟨j, by simp [h]⟩

/-- The list of registers up to Vx holds those registers only. -/
theorem mem_regPieces (x : RegIx) (p : Piece) : p ∈ regPieces x ↔ ∃ j ≤ x, Piece.reg j = p := by
  simp only [regPieces, List.mem_filterMap, List.mem_finRange, true_and]
  constructor
  · rintro ⟨j, h⟩
    split at h
    · cases h
      exact ⟨j, ‹_›, rfl⟩
    · cases h
  · rintro ⟨j, hj, rfl⟩
    exact ⟨j, by simp [hj]⟩

/-- The bytes of an access through `I` as pieces. -/
theorem mem_memPieces (s : State) (n : Nat) (p : Piece) :
    p ∈ s.memPieces n ↔ ∃ k < n, Piece.mem (s.ea k) = p := by
  simp [State.memPieces]

/-- The key a register value below 16 names. -/
theorem State.keyPiece_eq (s : State) (x : RegIx) (h : (s.reg x).toNat < 16) :
    s.keyPiece x = [.key ⟨(s.reg x).toNat, h⟩] := dif_pos h

end Sys2Proof.Machine
end

