-- ==== Sys2Proof/Laws/Step.lean ====
section
/-!
SUPPORT. Laws/Step.lean: what a step can do, said once, phase by phase.
-/

namespace Sys2Proof.Machine

/-- The fetch at an address a fetch succeeds from (R148, R71). -/
theorem State.fetch_ok (s : State) (h : s.pc.toNat ≤ 0xFFE) :
    s.fetch = .ok (wordOf (s.mem.get s.pc.toNat) (s.mem.get (s.pc.toNat + 1))) := by
  rw [State.fetch, s.load_ok (by omega), s.load_ok (by omega)]

/-- The fetch above 0xFFE: the first byte out of range (R148). -/
theorem State.fetch_error (s : State) (h : 0xFFE < s.pc.toNat) :
    s.fetch = .error (.fatal (.memoryOutOfRange s.pc (max s.pc.toNat 0x1000))) := by
  by_cases h1 : s.pc.toNat ≤ 0xFFF
  · rw [State.fetch, s.load_ok h1, s.load_error (by omega)]
    simp [show max s.pc.toNat 0x1000 = s.pc.toNat + 1 by omega]
  · rw [State.fetch, s.load_error (by omega)]
    simp [show max s.pc.toNat 0x1000 = s.pc.toNat by omega]

theorem State.decodeAt_ok (s : State) {w : Word} {i : Instr} (h : decode w = .ok i) :
    s.decodeAt w = .ok i := by simp [State.decodeAt, h]

theorem State.decodeAt_error (s : State) {w : Word} {e : Reject} (h : decode w = .error e) :
    s.decodeAt w = .error (.fatal (.undefinedOpcode s.pc w)) := by simp [State.decodeAt, h]

/-- What phases 4 to 6 answer: the fetch raises, the decode raises, or the decoded instruction runs. -/
theorem State.runInstr_cases (s : State) :
    (0xFFE < s.pc.toNat ∧
      s.runInstr = .next (raise (.memoryOutOfRange s.pc (max s.pc.toNat 0x1000)) s)) ∨
    (s.pc.toNat ≤ 0xFFE ∧ ∃ w, w = wordOf (s.mem.get s.pc.toNat) (s.mem.get (s.pc.toNat + 1)) ∧
      ((∃ e, decode w = .error e ∧ s.runInstr = .next (raise (.undefinedOpcode s.pc w) s)) ∨
        ∃ i, decode w = .ok i ∧ s.runInstr = exec i s)) := by
  by_cases h : s.pc.toNat ≤ 0xFFE
  · refine .inr ⟨h, _, rfl, ?_⟩
    cases hd : decode (wordOf (s.mem.get s.pc.toNat) (s.mem.get (s.pc.toNat + 1))) with
    | ok i => exact .inr ⟨i, rfl, by rw [State.runInstr, s.fetch_ok h]; simp only [s.decodeAt_ok hd]⟩
    | error e =>
      exact .inl ⟨e, rfl, by rw [State.runInstr, s.fetch_ok h]; simp only [s.decodeAt_error hd]; rfl⟩
  · exact .inl ⟨by omega, by rw [State.runInstr, s.fetch_error (by omega)]; rfl⟩

/-- What a step answers: a faulted core stays, a waiting one resolves or waits on, a running one runs
phases 3 to 6. -/
theorem step_cases (s : State) :
    (s.fault ≠ none ∧ step s = .next s) ∨
    (s.fault = none ∧ ∃ t, s.wait = .awaitingKey t ∧ step s = .next (s.latch.resolveWait t)) ∨
    (s.fault = none ∧ s.wait = .running ∧ step s = s.latch.tick.runInstr) := by
  cases hf : s.fault with
  | some f => exact .inl ⟨by simp, by simp [step, State.cycle, hf]⟩
  | none =>
    cases hw : s.wait with
    | awaitingKey t => exact .inr (.inl ⟨rfl, t, rfl, by simp [step, State.cycle, hf, hw]⟩)
    | running => exact .inr (.inr ⟨rfl, rfl, by simp [step, State.cycle, hf, hw]⟩)

/-- A run of one step more, from a step that answers a next state. -/
theorem run_succ_of_next (M : Host.Core) {s t : M.State} (n : Nat) (h : M.step s = .next t) :
    M.run (n + 1) s = M.run n t := by
  simp [Host.Core.run, h]

/-- The same of the core itself. -/
theorem core_run_succ {s t : State} (n : Nat) (h : step s = .next t) :
    Host.Core.run core (n + 1) s = Host.Core.run core n t := run_succ_of_next core n h

/-- What the key-wait resolution leaves: the lowest pressed key in the target register, or nothing
changed. -/
theorem State.resolveWait_cases (s : State) (t : RegIx) :
    (∃ k, lowestKey s.keys = some k ∧
      s.resolveWait t = (s.setReg t (BitVec.ofNat 8 k.val)).setWait .running) ∨
    (lowestKey s.keys = none ∧ s.resolveWait t = s) := by
  cases h : lowestKey s.keys with
  | some k => exact .inl ⟨k, rfl, by simp [State.resolveWait, h]⟩
  | none => exact .inr ⟨rfl, by simp [State.resolveWait, h]⟩

end Sys2Proof.Machine
end

