-- ==== Sys2Proof/Tests/Slice0.lean ====
section
/-!
SUPPORT. Tests/Slice0.lean: words written out from the spec's encodings, single steps with the
expected results of spec/95_test_vectors.md (S1 to S10 and its sections 2.1 to 2.7; a comment names
the place), and for every statement with hypotheses a state and operands that meet them.
-/

namespace Sys2Proof.Tests

open Sys2Proof Sys2Proof.Machine

/-! Helpers. -/

/-- A key snapshot with exactly the listed keys pressed. -/
def pressed (l : List Nat) : Keys := Vector.ofFn fun j => l.contains j.val

/-- The reset state with an instruction word at 0x200 and one given input. -/
def start (w : Nat) (k : Keys := pressed []) (r : Byte := 0) : State :=
  { State.reset.withFetchWord 16 w with inputs := [{ keys := k, r := r }] }

/-- The state with one byte of memory replaced. -/
def poke (s : State) (a : Nat) (b : Byte) : State := s.setMem (s.mem.set a b)

/-- An answer is a next state that passes a test. -/
def ran (r : Result) (f : State → Bool) : Bool :=
  match r with
  | .next t => f t
  | _ => false

/-- An answer is a next state with this condition in the fault latch. -/
def raised (r : Result) (f : Fatal) : Bool := ran r fun t => t.fault == some f

/-- All the pixels of the first list are set, and none of the second is. -/
def shows (f : Framebuffer) (on off : List (Fin 64 × Fin 32)) : Bool :=
  on.all (fun p => f.at p.1 p.2) && off.all fun p => !f.at p.1 p.2

/-- A core waiting for a key for V3, with the given keys coming. -/
def waiting (k : Keys) : State := { start 0x1200 k with wait := .awaitingKey 3 }

/-- The parameters with wait steps not counted. -/
def uncounted : Params := { Config.defaults with timerCountBlocked := false }

/-! ## The display family (S4, S5, 2.2) -/

/-- 2.2 row 1. -/
theorem test_cls :
    ran (step { start 0x00E0 with fb := (Framebuffer.blank.xorAt 1 1 true).xorAt 63 31 true })
      (fun t => shows t.fb [] [(1, 1), (63, 31)] && t.dirty && t.pc == 0x202#16) = true := by decide

/-- S4, S5: a row at x = 60 wraps, and the second draw erases it and sets VF. -/
theorem test_drw_wraps_then_erases :
    ran (step (poke ((start 0xD011).setReg 0 60 |>.setIreg 0x300) 0x300 0xFF))
      (fun t => shows t.fb [(60, 0), (63, 0), (0, 0), (3, 0)] [(59, 0), (4, 0), (60, 1)] &&
        t.reg 15 == 0#8 && t.dirty && t.pc == 0x202#16 &&
        ran (step (t.withFetchWord 16 0xD011)) fun u =>
          shows u.fb [] [(60, 0), (63, 0), (0, 0), (3, 0)] && u.reg 15 == 1#8) = true := by decide

/-- 2.2: rows wrap at the bottom; bit 7 is the left pixel; the second row byte at 0x1000 raises. -/
theorem test_drw_rows_and_fault :
    ran (step (poke (poke ((start 0xD012).setReg 1 31 |>.setIreg 0x300) 0x300 0x80) 0x301 0x80))
      (fun t => shows t.fb [(0, 31), (0, 0)] [(7, 31), (0, 1)] && t.reg 15 == 0#8) = true ∧
    raised (step ((start 0xD012).setIreg 0xFFF)) (.memoryOutOfRange 0x200 0x1000) = true := by decide

/-! ## The control-flow family (S6, 2.3) -/

theorem test_ret :
    ran (step { start 0x00EE with sp := 1, stack := State.reset.stack.set 0 0x206 })
      (fun t => t.pc == 0x206#16 && t.sp == 0#8) = true ∧
    raised (step (start 0x00EE)) (.stackUnderflow 0x200) = true := by decide

theorem test_sys : ran (step (start 0x0123)) (fun t => t.pc == 0x202#16 && t.v == State.reset.v) = true := by
  decide

theorem test_jp : ran (step (start 0x1ABC)) (fun t => t.pc == 0xABC#16) = true := by decide

/-- S6: the call at 0x206, and the call on a full stack. -/
theorem test_call :
    ran (step (State.withFetchWord { State.reset with pc := 0x206 } 16 0x2400))
      (fun t => t.pc == 0x400#16 && t.sp == 1#8 && t.stack.get 0 == 0x208#16) = true ∧
    raised (step { start 0x2200 with sp := 16 }) (.stackOverflow 0x200) = true := by decide

theorem test_se_imm :
    ran (step ((start 0x3210).setReg 2 0x10)) (fun t => t.pc == 0x204#16) = true ∧
    ran (step ((start 0x3211).setReg 2 0x10)) (fun t => t.pc == 0x202#16) = true := by decide

theorem test_sne_imm :
    ran (step ((start 0x4210).setReg 2 0x10)) (fun t => t.pc == 0x202#16) = true ∧
    ran (step ((start 0x4211).setReg 2 0x10)) (fun t => t.pc == 0x204#16) = true := by decide

theorem test_se_reg :
    ran (step ((start 0x5010).setReg 0 7 |>.setReg 1 7)) (fun t => t.pc == 0x204#16) = true := by decide

theorem test_sne_reg :
    ran (step ((start 0x9010).setReg 0 7 |>.setReg 1 8)) (fun t => t.pc == 0x204#16) = true ∧
    ran (step ((start 0x9010).setReg 0 7 |>.setReg 1 7)) (fun t => t.pc == 0x202#16) = true := by decide

/-- 2.3: 0xBFFF with V0 = 0xFF jumps to 0x10FE, and the next fetch raises there. -/
theorem test_jp_v0 :
    ran (step ((start 0xB300).setReg 0 0x10)) (fun t => t.pc == 0x310#16) = true ∧
    ran (step ((start 0xBFFF).setReg 0 0xFF)) (fun t => t.pc == 0x10FE#16 &&
      raised (step t) (.memoryOutOfRange 0x10FE 0x10FE)) = true := by decide

/-- 2.3, the fetch edges. -/
theorem test_fetch_edges :
    ran (step (State.withFetchWord { State.reset with pc := 0xFFE } 16 0x6011))
      (fun t => t.reg 0 == 0x11#8 && t.pc == 0x1000#16) = true ∧
    raised (step { State.reset with pc := 0xFFF }) (.memoryOutOfRange 0xFFF 0x1000) = true ∧
    raised (step { State.reset with pc := 0x1000 }) (.memoryOutOfRange 0x1000 0x1000) = true := by decide

/-! ## The register and arithmetic family (S1 to S3, 2.4) -/

theorem test_ld_imm :
    ran (step (start 0x6AB7)) (fun t => t.reg 10 == 0xB7#8 && t.pc == 0x202#16) = true ∧
    ran (step (start 0x6FAB)) (fun t => t.reg 15 == 0xAB#8) = true := by decide

theorem test_add_imm_wraps :
    ran (step ((start 0x7103).setReg 1 0xFE |>.setReg 15 0x33))
      (fun t => t.reg 1 == 0x01#8 && t.reg 15 == 0x33#8) = true := by decide

theorem test_ld_reg :
    ran (step ((start 0x8120).setReg 1 9 |>.setReg 2 0x5A)) (fun t => t.reg 1 == 0x5A#8) = true := by decide

theorem test_or :
    ran (step ((start 0x8121).setReg 1 0x0F |>.setReg 2 0xF0 |>.setReg 15 7))
      (fun t => t.reg 1 == 0xFF#8 && t.reg 15 == 7#8) = true := by decide

theorem test_and :
    ran (step ((start 0x8122).setReg 1 0x3C |>.setReg 2 0x0F)) (fun t => t.reg 1 == 0x0C#8) = true := by decide

theorem test_xor_self :
    ran (step ((start 0x8003).setReg 0 0x3C)) (fun t => t.reg 0 == 0#8) = true := by decide

theorem test_add_reg :
    ran (step ((start 0x8014).setReg 0 250 |>.setReg 1 10)) (fun t => t.reg 0 == 4#8 && t.reg 15 == 1#8) = true ∧
    ran (step ((start 0x8014).setReg 0 10 |>.setReg 1 10))
      (fun t => t.reg 0 == 20#8 && t.reg 15 == 0#8) = true := by decide
theorem test_add_reg_vf :
    ran (step ((start 0x8F14).setReg 15 0xFF |>.setReg 1 2)) (fun t => t.reg 15 == 1#8) = true ∧
    ran (step ((start 0x80F4).setReg 0 1 |>.setReg 15 0xFF))
      (fun t => t.reg 0 == 0#8 && t.reg 15 == 1#8) = true := by decide

theorem test_sub :
    ran (step ((start 0x8015).setReg 0 5 |>.setReg 1 10)) (fun t => t.reg 0 == 251#8 && t.reg 15 == 0#8) = true ∧
    ran (step ((start 0x8015).setReg 0 7 |>.setReg 1 7))
      (fun t => t.reg 0 == 0#8 && t.reg 15 == 0#8) = true := by decide
theorem test_sub_vf :
    ran (step ((start 0x8F15).setReg 15 0x10 |>.setReg 1 5)) (fun t => t.reg 15 == 0xFC#8) = true ∧
    ran (step ((start 0x80F5).setReg 0 0x10 |>.setReg 15 5))
      (fun t => t.reg 0 == 0x0F#8 && t.reg 15 == 1#8) = true ∧
    ran (step ((start 0x8FF5).setReg 15 9)) (fun t => t.reg 15 == 0#8) = true := by decide

theorem test_shr :
    ran (step ((start 0x8016).setReg 0 5)) (fun t => t.reg 0 == 2#8 && t.reg 15 == 1#8) = true ∧
    ran (step ((start 0x8F06).setReg 15 5)) (fun t => t.reg 15 == 0#8) = true := by decide

theorem test_subn :
    ran (step ((start 0x8017).setReg 0 5 |>.setReg 1 10)) (fun t => t.reg 0 == 5#8 && t.reg 15 == 1#8) = true ∧
    ran (step ((start 0x8017).setReg 0 10 |>.setReg 1 5))
      (fun t => t.reg 0 == 0xFB#8 && t.reg 15 == 0#8) = true := by decide
theorem test_subn_vf :
    ran (step ((start 0x8F17).setReg 15 3 |>.setReg 1 5)) (fun t => t.reg 15 == 4#8) = true ∧
    ran (step ((start 0x80F7).setReg 0 3 |>.setReg 15 5))
      (fun t => t.reg 0 == 0xFE#8 && t.reg 15 == 1#8) = true := by decide

theorem test_shl :
    ran (step ((start 0x801E).setReg 0 0x81)) (fun t => t.reg 0 == 0x02#8 && t.reg 15 == 1#8) = true ∧
    ran (step ((start 0x8F0E).setReg 15 0x81)) (fun t => t.reg 15 == 2#8) = true := by decide

theorem test_rnd :
    ran (step (start 0xC30F (pressed []) 0xA7)) (fun t => t.reg 3 == 0x07#8) = true ∧
    ran (step ((start 0xC300 (pressed []) 0xA7).setReg 3 9)) (fun t => t.reg 3 == 0#8) = true := by decide

/-! ## The index register and memory family (S9, S10, 2.5) -/

theorem test_ld_i : ran (step (start 0xA2F0)) (fun t => t.ireg == 0x2F0#16) = true := by decide

theorem test_add_i :
    ran (step ((start 0xF01E).setIreg 0x0FFF |>.setReg 0 1)) (fun t => t.ireg == 0x1000#16) = true ∧
    raised (step ((start 0xF01E).setIreg 0xFFFF |>.setReg 0 1)) (.iOverflow 0x200 0x10000) = true := by decide

theorem test_glyph :
    ran (step ((start 0xF029).setReg 0 0x0A)) (fun t => t.ireg == 0x032#16) = true ∧
    ran (step ((start 0xF029).setReg 0 0xFF)) (fun t => t.ireg == 0x4FB#16) = true := by decide

theorem test_digits :
    ran (step ((start 0xF033).setIreg 0x300 |>.setReg 0 157))
      (fun t => t.mem.get 0x300 == 1#8 && t.mem.get 0x301 == 5#8 && t.mem.get 0x302 == 7#8) = true ∧
    raised (step ((start 0xF033).setIreg 0xFFE |>.setReg 0 255)) (.memoryOutOfRange 0x200 0x1000) = true := by
  decide

theorem test_store_registers :
    ran (step ((start 0xF155).setIreg 0xFFE |>.setReg 0 0x0A |>.setReg 1 0x0B))
      (fun t => t.mem.get 0xFFE == 0x0A#8 && t.mem.get 0xFFF == 0x0B#8 && t.ireg == 0xFFE#16) = true ∧
    raised (step ((start 0xF255).setIreg 0xFFE)) (.memoryOutOfRange 0x200 0x1000) = true := by decide

theorem test_load_registers :
    ran (step (poke ((start 0xFF65).setIreg 0x400 |>.setReg 0 3) 0x40F 0x77))
      (fun t => t.reg 0 == 0#8 && t.reg 14 == 0#8 && t.reg 15 == 0x77#8 && t.ireg == 0x400#16) = true ∧
    raised (step ((start 0xF065).setIreg 0x1000)) (.memoryOutOfRange 0x200 0x1000) = true := by decide
/-- 2.5 last row: the first glyph bytes. -/
theorem test_load_font :
    ran (step (start 0xF265)) (fun t => t.reg 0 == 0xF0#8 && t.reg 1 == 0x90#8 && t.reg 2 == 0x90#8) = true := by
  decide

/-! ## The key and timer family (S7, 2.6) -/

theorem test_skp :
    ran (step ((start 0xE59E (pressed [7])).setReg 5 7)) (fun t => t.pc == 0x204#16) = true ∧
    ran (step ((start 0xE59E (pressed [0, 1, 2, 3, 4, 5, 6, 8, 9, 15])).setReg 5 7))
      (fun t => t.pc == 0x202#16) = true ∧
    raised (step ((start 0xE59E).setReg 5 0x10)) (.keyIndexOutOfRange 0x200 0x10) = true := by decide

theorem test_sknp :
    ran (step ((start 0xE5A1).setReg 5 7)) (fun t => t.pc == 0x204#16) = true ∧
    ran (step ((start 0xE5A1 (pressed [7])).setReg 5 7)) (fun t => t.pc == 0x202#16) = true ∧
    raised (step ((start 0xE5A1).setReg 5 0xFF)) (.keyIndexOutOfRange 0x200 0xFF) = true := by decide

/-- 2.6: with `cyc` = 11 before the step the tick comes first. -/
theorem test_read_delay_timer :
    ran (step { start 0xF307 with dt := 0x20 }) (fun t => t.reg 3 == 0x20#8 && t.dt == 0x20#8) = true ∧
    ran (step { start 0xF307 with dt := 0x20, cyc := 11 })
      (fun t => t.reg 3 == 0x1F#8 && t.dt == 0x1F#8) = true ∧
    ran (step { start 0xF307 with cyc := 11 }) (fun t => t.reg 3 == 0#8 && t.dt == 0#8) = true := by decide

theorem test_set_delay_timer :
    ran (step { (start 0xF015).setReg 0 5 with cyc := 11 }) (fun t => t.dt == 5#8) = true := by decide

theorem test_set_sound_timer :
    ran (step ((start 0xF118).setReg 1 0x30)) (fun t => t.st == 0x30#8) = true := by decide

/-- 2.6: the keys of the Fx0A step itself are not scanned; the next step takes the lowest. -/
theorem test_key_wait :
    ran (step (start 0xF30A (pressed [3, 9]))) (fun t => t.wait == .awaitingKey 3 && t.pc == 0x202#16 &&
      ran (step { t with inputs := [{ keys := pressed [3, 9], r := 0 }] }) fun u =>
        u.reg 3 == 3#8 && u.wait == .running && u.pc == 0x202#16) = true := by decide
/-- S7 row 2, and under TIMER_COUNT_BLOCKED the wait step counts but does not tick (P5). -/
theorem test_key_wait_goes_on :
    ran (step { waiting (pressed []) with cyc := 11, dt := 5 }) (fun t => t.wait == .awaitingKey 3 && t.pc == 0x200#16 && t.cyc == 0 && t.dt == 5#8) = true ∧
    ran (step { waiting (pressed []) with cyc := 11, cfg := uncounted }) (fun t => t.cyc == 11) = true := by decide

/-! ## Step engine, faults and construction (2.7) -/

theorem test_illegal_word :
    raised (step { start 0x5001 with cyc := 11 }) (.undefinedOpcode 0x200 0x5001) = true := by decide

theorem test_faulted_step :
    step { start 0x6011 with fault := some (.stackUnderflow 0x200) } =
      .next { start 0x6011 with fault := some (.stackUnderflow 0x200) } := rfl

theorem test_fault_codes :
    (Fatal.programSize 0).code = 1 ∧ (Fatal.undefinedOpcode 0 0).code = 2 ∧
    (Fatal.stackOverflow 0).code = 3 ∧ (Fatal.stackUnderflow 0).code = 4 ∧
    (Fatal.memoryOutOfRange 0 0).code = 5 ∧ (Fatal.keyIndexOutOfRange 0 0).code = 6 ∧
    (Fatal.iOverflow 0 0).code = 7 := by decide

/-- The default font. -/
def defaultFont : Vector Byte 80 := ⟨Config.font.toArray, rfl⟩

/-- Construction with one zero byte at 0x200 is the reset state (log entry 23). -/
theorem test_construct_reset : construct Config.defaults defaultFont [0] = .ok State.reset := by decide

theorem test_construct_empty : construct Config.defaults defaultFont [] = .error (.programSize 0) := by decide

/-! ## Witnesses: for every statement with hypotheses, a state and operands that meet them -/

/-- A state about to run the word at 0x200. -/
theorem about_start (w : Nat) (k : Keys) (r : Byte) (i : Instr)
    (h : decode (start w k r).wordAtPc = .ok i) : (start w k r).AboutToRun i :=
  ⟨rfl, rfl, (by decide : (0x200#16).toNat ≤ 0xFFE), h⟩

/-- DecodeOfEncodeIsIdentity, EncodeOfDecodeIsIdentity. -/
theorem wit_encoding :
    (Instr.sys 0xFFF#12).wellFormed = true ∧ (Instr.drw 15 15 15).wellFormed = true ∧
    decode 0xFFFF#16 ≠ .ok (.ldVxMem 15) ∧ decode 0xFF65#16 = .ok (.ldVxMem 15) := by decide

/-- UndefinedWordsByFamily: a rejected word of each of the five families. -/
theorem wit_undefined :
    decode 0x5FFF#16 = .error (.undefinedOpcode 0x5FFF#16) ∧
    decode 0x8AB8#16 = .error (.undefinedOpcode 0x8AB8#16) ∧
    decode 0x9FFF#16 = .error (.undefinedOpcode 0x9FFF#16) ∧
    decode 0xEF9D#16 = .error (.undefinedOpcode 0xEF9D#16) ∧
    decode 0xFFFF#16 = .error (.undefinedOpcode 0xFFFF#16) := by decide

/-- StepRunsTheDecodedInstruction: the reset state itself, whose word at 0x200 is 0x0000. -/
theorem wit_reset_runs_sys : State.reset.AboutToRun (.sys 0x000#12) := ⟨rfl, rfl, by decide, by decide⟩

/-- StepRunsTheDecodedInstruction, and the clauses of RandomByteMasked, SkipsOnKeys, DelayTimerAccess
and WaitForKey about a whole step, with the operands they ask for. -/
theorem wit_about_to_run :
    (start 0xC30F (pressed []) 0xA7).AboutToRun (.rnd 3 0x0F#8) ∧
    (start 0xC30F (pressed []) 0xA7).inputs = { keys := pressed [], r := 0xA7#8 } :: [] ∧
    ((start 0xE59E).setReg 5 15).AboutToRun (.skp 5) ∧ (((start 0xE59E).setReg 5 15).reg 5).toNat < 16 ∧
    ((start 0xE5A1).setReg 5 15).AboutToRun (.sknp 5) ∧ (((start 0xE5A1).setReg 5 15).reg 5).toNat < 16 ∧
    (start 0xF307).AboutToRun (.ldVxDt 3) ∧ (start 0xF015).AboutToRun (.ldDtVx 0) ∧
    (start 0xF015).dt = 0#8 ∧ (start 0xF30A).AboutToRun (.ldVxK 3) :=
  ⟨about_start _ _ _ _ (by decide), rfl, ⟨rfl, rfl, by decide, by decide⟩, by decide,
    ⟨rfl, rfl, by decide, by decide⟩, by decide, about_start _ _ _ _ (by decide),
    about_start _ _ _ _ (by decide), rfl, about_start _ _ _ _ (by decide)⟩

/-- LatchPhaseEffect: a given input; a counted running step; a counted and an uncounted waiting step. -/
theorem wit_latch :
    (start 0x1200).inputs = { keys := pressed [], r := 0#8 } :: [] ∧
    State.reset.cfg.timerCountBlocked = true ∧ State.reset.wait = .running ∧
    ({ waiting (pressed []) with cfg := uncounted } : State).cfg.timerCountBlocked = false ∧
    ({ waiting (pressed []) with cfg := uncounted } : State).wait ≠ .running := by decide

/-- TimerTickAction: both values of its condition, at the two ends of `cyc`. -/
theorem wit_tick : State.reset.cyc = 0 ∧ ({ State.reset with cyc := 11 } : State).cyc ≠ 0 := by decide

/-- FaultedCoreNeverChanges. -/
theorem wit_faulted : (raise (.stackUnderflow 0x200) State.reset).fault ≠ none := fun h => nomatch h

/-- OutOfRangeAccessFaults, the clause about the fetch: `pc` at 0xFFF with k = 1, at
0x1000 and 0xFFFF with k = 0; reset has no fault and no wait. -/
theorem wit_fetch_fault :
    State.reset.fault = none ∧ State.reset.wait = .running ∧
    0xFFE < ({ State.reset with pc := 0xFFF } : State).pc.toNat ∧
    0xFFF < ({ State.reset with pc := 0xFFF } : State).pc.toNat + 1 ∧
    (∀ j < 1, ({ State.reset with pc := 0xFFF } : State).pc.toNat + j ≤ 0xFFF) ∧
    0xFFF < ({ State.reset with pc := 0x1000 } : State).pc.toNat + 0 ∧
    0xFFF < ({ State.reset with pc := 0xFFFF } : State).pc.toNat + 0 := by decide

/-- IllegalWordFaults, at the reset `pc` and at the last one a fetch succeeds from. -/
theorem wit_illegal :
    (start 0x5001).fault = none ∧ (start 0x5001).wait = .running ∧ (start 0x5001).pc.toNat ≤ 0xFFE ∧
    decode (start 0x5001).wordAtPc = .error (.undefinedOpcode 0x5001#16) ∧
    decode (State.withFetchWord { State.reset with pc := 0xFFE } 16 0xF0FF).wordAtPc =
      .error (.undefinedOpcode 0xF0FF#16) := by decide

/-- KeyWaitStep, both settings of TIMER_COUNT_BLOCKED. -/
theorem wit_key_wait_count :
    (waiting (pressed [])).cfg.timerCountBlocked = true ∧
    ({ waiting (pressed []) with cfg := uncounted } : State).cfg.timerCountBlocked = false ∧
    ({ waiting (pressed []) with cfg := uncounted } : State).wait = .awaitingKey 3 ∧
    ({ waiting (pressed []) with cfg := uncounted } : State).fault = none := by decide

/-- KeyWaitStep, WaitForKey and WaitEnteredAndLeft: key 0 alone, key 15 alone, keys 3 and 9, no key. -/
theorem wit_key_wait :
    (waiting (pressed [0])).fault = none ∧ (waiting (pressed [0])).wait = .awaitingKey 3 ∧
    (waiting (pressed [0])).nextInput.keys.get 0 = true ∧
    (waiting (pressed [15])).nextInput.keys.get 15 = true ∧
    (∀ j < (15 : RegIx), (waiting (pressed [15])).nextInput.keys.get j = false) ∧
    (waiting (pressed [3, 9])).nextInput.keys.get 3 = true ∧
    (∀ j < (3 : RegIx), (waiting (pressed [3, 9])).nextInput.keys.get j = false) ∧
    (∀ k : RegIx, (waiting (pressed [])).nextInput.keys.get k = false) := by decide

/-- WaitEnteredAndLeft, second clause: a step that enters the wait. -/
theorem wit_wait_entered : ∃ t, step (start 0xF30A) = .next t ∧ t.fault = none ∧ t.wait = .awaitingKey 3 :=
  ⟨_, rfl, rfl, rfl⟩

/-- WaitEnteredAndLeft, third clause: a step of a waiting core. -/
theorem wit_wait_left : ∃ t, step (waiting (pressed [15])) = .next t ∧ t.wait = .running :=
  ⟨_, rfl, by decide⟩

theorem wit_reset_inv : State.reset.Inv := ⟨by decide, fun _ => ⟨by decide, by decide, by decide⟩⟩

/-- StepKeepsInvariant, InvariantStatesAlwaysStep, StepKeepsParameters: the reset state and its step,
and a step that faults. -/
theorem wit_steps :
    State.reset.Inv ∧ (∃ t, step State.reset = .next t) ∧ (start 0x00EE).Inv ∧
    ∃ t, step (start 0x00EE) = .next t ∧ t.fault = some (.stackUnderflow 0x200) :=
  ⟨wit_reset_inv, ⟨_, rfl⟩, ⟨by decide, fun _ => ⟨by decide, by decide, by decide⟩⟩, ⟨_, rfl, by decide⟩⟩

/-- The edge of the invariant: SP at 16, `pc` at 0x10FE, an entry at 0x1000. -/
theorem wit_inv_edge :
    ({ State.reset with sp := 16, pc := 0x10FE, stack := Vector.replicate 16 0x1000 } : State).Inv :=
  ⟨by decide, fun _ => ⟨by decide, by decide, by decide⟩⟩

/-- DirtyExactlyAfterClearOrDraw: an unfaulted step of each kind. -/
theorem wit_dirty :
    ran (step (start 0x00E0)) (fun t => t.fault == none && t.dirty) = true ∧
    ran (step (start 0xD01F)) (fun t => t.fault == none && t.dirty) = true ∧
    ran (step { start 0x1200 with dirty := true }) (fun t => t.fault == none && !t.dirty) = true := by decide

/-- A run of the self-jump at 0x200 with DT = 5 at the start. -/
def selfJump : Nat → State
  | 0 => { start 0x1200 with dt := 5 }
  | n + 1 => ((selfJump n).latch.tick).apply (.jump 0x200)

theorem tick_fields (s : State) : s.tick.fault = s.fault ∧ s.tick.wait = s.wait ∧ s.tick.pc = s.pc ∧
    s.tick.mem = s.mem := by
  unfold State.tick
  split <;> exact ⟨rfl, rfl, rfl, rfl⟩

theorem selfJump_fields (n : Nat) : (selfJump n).fault = none ∧ (selfJump n).wait = .running ∧
    (selfJump n).pc = 0x200 ∧ (selfJump n).mem = (start 0x1200).mem := by
  induction n with
  | zero => exact ⟨rfl, rfl, rfl, rfl⟩
  | succ n ih =>
    have h := tick_fields (selfJump n).latch
    exact ⟨h.1.trans ih.1, h.2.1.trans ih.2.1, rfl, h.2.2.2.trans ih.2.2.2⟩

theorem selfJump_word (n : Nat) : decode (selfJump n).wordAtPc = .ok (.jp 0x200#12) := by
  obtain ⟨-, -, hp, hm⟩ := selfJump_fields n
  rw [State.wordAtPc, hp, hm]
  decide

theorem selfJump_step (n : Nat) : step (selfJump n) = .next (selfJump (n + 1)) := by
  obtain ⟨hf, hw, hp, hm⟩ := selfJump_fields n
  have hi : (selfJump n).latch.tick.runInstr = exec (.jp 0x200#12) (selfJump n).latch.tick := by
    have hw' := selfJump_word n
    obtain ⟨-, -, tp, tm⟩ := tick_fields (selfJump n).latch
    have hp' : (selfJump n).latch.tick.pc = (selfJump n).pc := tp
    have hm' : (selfJump n).latch.tick.mem = (selfJump n).mem := tm
    have hle : (selfJump n).latch.tick.pc.toNat ≤ 0xFFE := by rw [hp', hp]; decide
    rw [State.runInstr, State.fetch_ok _ hle, hp', hm']
    show (match State.decodeAt _ (selfJump n).wordAtPc with
      | .error e => finish _ (.error e)
      | .ok i => exec i _) = _
    rw [State.decodeAt_ok _ hw']
  rcases step_cases (selfJump n) with ⟨h, -⟩ | ⟨-, t, h, -⟩ | ⟨-, -, h⟩
  · exact absurd hf h
  · rw [hw] at h
    cases h
  · rw [h, hi]
    rfl

/-- DelayTimerSixtySteps: the self-jump meets all its hypotheses. -/
theorem wit_sixty_steps :
    (∀ n < 60, (selfJump n).fault = none ∧ (selfJump n).wait = .running ∧
      step (selfJump n) = .next (selfJump (n + 1)) ∧ ∀ x, ¬(selfJump n).AboutToRun (.ldDtVx x)) ∧
    (selfJump 60).fault = none ∧ (selfJump 0).dt = 5#8 := by
  refine ⟨fun n _ => ⟨(selfJump_fields n).1, (selfJump_fields n).2.1, selfJump_step n, fun x h => ?_⟩,
    (selfJump_fields 60).1, rfl⟩
  have := h.decodes.symm.trans (selfJump_word n)
  cases this

/-- FinishedStaysFinished: a jump to itself at 0x200 (2.3, last row of its first table). -/
theorem wit_finished : (start 0x1200).finished := ⟨rfl, rfl, by decide, by decide⟩

/-- PlacedWordIsRunNext. -/
theorem wit_placed : State.reset.mem.wf ∧ decodeTableWord 16 0x1200 = some (.jp 0x200#12) := by decide

/-- ConstructionSizeCheck: 1, 3584, 0 and 3585 bytes. -/
theorem wit_program_sizes :
    (∀ n ∈ [1, 3584], 1 ≤ (List.replicate n (0#8)).length ∧ (List.replicate n (0#8)).length ≤ 3584) ∧
    (∀ n ∈ [0, 3585], ¬(1 ≤ (List.replicate n (0#8)).length ∧ (List.replicate n (0#8)).length ≤ 3584)) := by
  simp only [List.length_replicate]
  decide

/-- ConstructedCore. -/
theorem wit_constructed : ∃ s, construct Config.defaults defaultFont [0x12#8, 0x00#8] = .ok s := ⟨_, rfl⟩

/-- OutOfRangeAccessFaults, the clauses about Dxyn, Fx33, Fx55 and Fx65, at their first and last k. -/
theorem wit_out_of_range :
    (0xFFF < (State.reset.setIreg 0x1000).ea 0) ∧
    (0xFFF < (State.reset.setIreg 0xFFF).ea 1 ∧ ∀ j < 1, (State.reset.setIreg 0xFFF).ea j ≤ 0xFFF) ∧
    (0xFFF < (State.reset.setIreg 0xFFE).ea 2 ∧ ∀ j < 2, (State.reset.setIreg 0xFFE).ea j ≤ 0xFFF) ∧
    (0xFFF < (State.reset.setIreg 0xFF2).ea 14 ∧ ∀ j < 14, (State.reset.setIreg 0xFF2).ea j ≤ 0xFFF) ∧
    (0xFFF < (State.reset.setIreg 0xFF1).ea 15 ∧ ∀ j < 15, (State.reset.setIreg 0xFF1).ea j ≤ 0xFFF) := by
  decide

/-- CallPushesAndJumps, ReturnPopsAndJumps, CallThenReturn, IllegalStackDepthStops: SP at
0, 1, 15, 16 and 17. -/
theorem wit_stack_depths :
    State.reset.sp = 0#8 ∧ State.reset.sp.toNat < 16 ∧
    ({ State.reset with sp := 15 } : State).sp.toNat < 16 ∧
    ({ State.reset with sp := 16 } : State).sp = 16#8 ∧
    (0 < ({ State.reset with sp := 1 } : State).sp.toNat ∧ ({ State.reset with sp := 1 } : State).sp.toNat - 1 < 16) ∧
    (0 < ({ State.reset with sp := 16 } : State).sp.toNat ∧
      ({ State.reset with sp := 16 } : State).sp.toNat - 1 < 16) ∧
    16 < ({ State.reset with sp := 17 } : State).sp.toNat ∧ State.reset.fault = none := by decide

/-- SkipsOnKeys: Vx at 15, 16 and 255. -/
theorem wit_key_indices :
    ((State.reset.setReg 5 15).reg 5).toNat < 16 ∧ 15 < ((State.reset.setReg 5 16).reg 5).toNat ∧
    15 < ((State.reset.setReg 5 255).reg 5).toNat := by decide

/-- The glyph of 0 about to be drawn at (0, 0) over a blank screen, and over one with (0, 0) set. -/
theorem wit_draw :
    (∀ k < (15 : Rows).val, State.reset.ea k ≤ 0xFFF) ∧
    State.reset.InSprite 0 1 5 0 0 ∧
    ({ State.reset with fb := Framebuffer.blank.xorAt 0 0 true } : State).InSprite 0 1 5 0 0 ∧
    ({ State.reset with fb := Framebuffer.blank.xorAt 0 0 true } : State).fb.at 0 0 = true ∧
    (∀ px py, State.reset.fb.at px py = false) ∧ ¬State.reset.InSprite 0 1 5 63 31 := by
  refine ⟨by decide, ⟨0, 0, by decide, by decide, by decide, by decide, by decide⟩,
    ⟨0, 0, by decide, by decide, by decide, by decide, by decide⟩, by decide,
    Framebuffer.at_blank, ?_⟩
  rintro ⟨row, col, hr, hc, hx, -⟩
  have hz : (State.reset.reg 0).toNat = 0 := rfl
  rw [hz] at hx
  have h63 : (63 : Fin 64).val = 63 := rfl
  omega

/-- DrawTwiceRestores: two draws that both answer a next state. -/
theorem wit_draw_twice :
    ∃ t u, exec (.drw 0 1 5) State.reset = .next t ∧ exec (.drw 0 1 5) t = .next u ∧
      State.reset.cfg.drawVfInit = .clear := ⟨_, _, rfl, rfl, rfl⟩

/-- AddWithCarry, SubtractVyFromVx, SubtractVxFromVy, ShiftsByOne, FlagConventions: destinations and
sources that are and are not VF, equal operands, a byte on each side of 128. -/
theorem wit_vf_cases :
    (0 : RegIx) ≠ 15 ∧ (14 : RegIx) ≠ 15 ∧ (15 : RegIx) = 15 ∧
    ((State.reset.setReg 15 127).reg 15).toNat < 128 ∧ ¬((State.reset.setReg 15 128).reg 15).toNat < 128 ∧
    State.reset.reg 0 = State.reset.reg 1 := by decide

/-- AddToIndex: sums 0xFFFF and 0x10000. -/
theorem wit_index_sums :
    ((State.reset.setIreg 0xFF00).setReg 0 0xFF).ireg.toNat +
      (((State.reset.setIreg 0xFF00).setReg 0 0xFF).reg 0).toNat ≤ 0xFFFF ∧
    0xFFFF < ((State.reset.setIreg 0xFF01).setReg 0 0xFF).ireg.toNat +
      (((State.reset.setIreg 0xFF01).setReg 0 0xFF).reg 0).toNat := by decide

/-- StoreDecimalDigits, StoreRegisters, LoadRegisters: the last address in range. -/
theorem wit_in_range :
    State.reset.mem.wf ∧ (State.reset.setIreg 0xFFD).mem.wf ∧ (State.reset.setIreg 0xFFD).ea 2 ≤ 0xFFF ∧
    (State.reset.setIreg 0xFFF).ea (0 : RegIx).val ≤ 0xFFF ∧
    (State.reset.setIreg 0xFF0).ea (15 : RegIx).val ≤ 0xFFF := by decide

/-- StoreThenLoadRoundTrip (S10): a store, and a state with zeroed registers, the same memory and `I`. -/
theorem wit_round_trip :
    ∃ t : State, exec (.ldMemVx 3) ((State.reset.setIreg 0x400).setReg 3 4) = .next t ∧
      ({ t with v := Vector.replicate 16 0 } : State).mem = t.mem ∧
      ({ t with v := Vector.replicate 16 0 } : State).ireg = t.ireg := ⟨_, rfl, rfl, rfl⟩

/-- StoredBytesAreFetched (P4): `I` is the address after the instruction. -/
theorem wit_stored_fetched :
    ∃ t : State, exec (.ldMemVx 1) ((State.reset.setIreg 0x202).setReg 0 0x60) = .next t ∧
      t.pc = ((State.reset.setIreg 0x202).setReg 0 0x60).ireg := ⟨_, rfl, by decide⟩

/-- EveryInstructionWritesItsRow and EveryInstructionReadsItsRow: two different states that agree on
what an instruction reads. -/
theorem wit_rows :
    State.reset.mem.wf ∧ State.reset.fault = none ∧
    (∃ t : State, exec (.ldReg 1 2) State.reset = .next t ∧ t.fault = none) ∧
    (∃ t : State, exec (.ldReg 1 2) (State.reset.setReg 1 9) = .next t ∧ t.fault = none) ∧
    ∀ p ∈ reads (.ldReg 1 2) State.reset, Agree p State.reset (State.reset.setReg 1 9) := by
  refine ⟨by decide, rfl, ⟨_, rfl, rfl⟩, ⟨_, rfl, rfl⟩, fun p hp => ?_⟩
  rcases List.mem_cons.mp hp with rfl | hp
  · rfl
  · rcases List.mem_cons.mp hp with rfl | hp
    · exact (by decide : (State.reset.setReg 1 9).reg 2 = State.reset.reg 2)
    · cases hp

/-- EveryInstructionReadsItsRow, Ex9E and ExA1: two snapshots that agree on key 7 alone of 3 and 7, with
V5 = 7; both instructions answer an unfaulted next state in both. -/
theorem wit_rows_key :
    (∀ p ∈ reads (.skp 5) ({ State.reset with keys := pressed [7] }.setReg 5 7),
      Agree p ({ State.reset with keys := pressed [7] }.setReg 5 7)
        ({ State.reset with keys := pressed [3, 7] }.setReg 5 7)) ∧
    reads (.sknp 5) (State.reset.setReg 5 15) = [.pc, .reg 5, .key 15] ∧
    reads (.skp 5) (State.reset.setReg 5 16) = [.pc, .reg 5] ∧
    ran (exec (.skp 5) ({ State.reset with keys := pressed [7] }.setReg 5 7)) (·.fault == none) = true ∧
    ran (exec (.skp 5) ({ State.reset with keys := pressed [3, 7] }.setReg 5 7)) (·.fault == none) = true := by
  refine ⟨fun p hp => ?_, by decide, by decide, by decide, by decide⟩
  have hr : reads (.skp 5) ({ State.reset with keys := pressed [7] }.setReg 5 7) =
      [.pc, .reg 5, .key 7] := by decide
  rw [hr] at hp
  rcases List.mem_cons.mp hp with rfl | hp
  · rfl
  · rcases List.mem_cons.mp hp with rfl | hp
    · rfl
    · cases List.mem_singleton.mp hp
      exact (by decide : (pressed [3, 7]).get 7 = (pressed [7]).get 7)

/-- EveryInstructionReadsItsRow, 1nnn and Bnnn: two states that differ in `pc`. -/
theorem wit_rows_jump :
    (∀ p ∈ reads (.jp 0xABC#12) State.reset, Agree p State.reset { State.reset with pc := 0x300 }) ∧
    (∀ p ∈ reads (.jpV0 0x300#12) State.reset, Agree p State.reset { State.reset with pc := 0x300 }) := by
  refine ⟨fun p hp => (nomatch hp), fun p hp => ?_⟩
  cases List.mem_singleton.mp hp
  rfl

end Sys2Proof.Tests
end

section
/-!
Frames: what each operation on the state changes and what it leaves, as `ChangesOnly` facts that
compose, and the two states of a noninterference claim that agree on a list of pieces.
-/

namespace Sys2Proof.Machine

variable {p : Piece} {ps qs : List Piece} {s t u s' t' : State}

theorem Agree.refl (p : Piece) (s : State) : Agree p s s := by cases p <;> rfl

theorem Agree.symm (h : Agree p s t) : Agree p t s := by cases p <;> exact Eq.symm h

theorem Agree.trans (h : Agree p s t) (h' : Agree p t u) : Agree p s u := by
  cases p <;> exact Eq.trans h' h

theorem ChangesOnly.refl (s : State) : ChangesOnly [] s s := fun p _ => Agree.refl p s

theorem ChangesOnly.trans (h : ChangesOnly ps s t) (h' : ChangesOnly qs t u) :
    ChangesOnly (qs ++ ps) s u := fun p hp =>
  (h p fun hm => hp (List.mem_append_right _ hm)).trans
    (h' p fun hm => hp (List.mem_append_left _ hm))

theorem State.setReg_changesOnly (s : State) (x : RegIx) (b : Byte) :
    ChangesOnly [.reg x] s (s.setReg x b) := by
  intro p hp
  cases p with
  | reg j => exact s.reg_setReg_ne b (by simpa using hp)
  | _ => rfl

/-- Two register writes, listed in the order in which they are made. -/
theorem State.setReg_setReg_changesOnly (s : State) (x y : RegIx) (b c : Byte) :
    ChangesOnly [.reg x, .reg y] s ((s.setReg x b).setReg y c) := fun p hp =>
  ((s.setReg_changesOnly x b).trans (State.setReg_changesOnly _ y c)) p
    (by simpa [and_comm] using hp)

theorem State.setIreg_changesOnly (s : State) (w : Word) : ChangesOnly [.ireg] s (s.setIreg w) := by
  intro p hp
  cases p with
  | ireg => simp at hp
  | _ => rfl

theorem State.setDt_changesOnly (s : State) (b : Byte) : ChangesOnly [.dt] s (s.setDt b) := by
  intro p hp
  cases p with
  | dt => simp at hp
  | _ => rfl

theorem State.setSt_changesOnly (s : State) (b : Byte) : ChangesOnly [.st] s (s.setSt b) := by
  intro p hp
  cases p with
  | st => simp at hp
  | _ => rfl

theorem State.setWait_changesOnly (s : State) (w : Wait) : ChangesOnly [.wait] s (s.setWait w) := by
  intro p hp
  cases p with
  | wait => simp at hp
  | _ => rfl

theorem State.setFb_changesOnly (s : State) (f : Framebuffer) :
    ChangesOnly [.fb, .dirty] s (s.setFb f) := by
  intro p hp
  cases p with
  | fb | dirty => simp at hp
  | _ => rfl

theorem State.apply_changesOnly (s : State) (d : Directive) : ChangesOnly [.pc] s (s.apply d) := by
  intro p hp
  cases p with
  | pc => simp at hp
  | _ => simp [Agree]

/-- What a pop leaves of the state (R191). -/
theorem State.popped_changesOnly (s : State) (n : Byte) : ChangesOnly [.sp] s { s with sp := n } := by
  intro p hp
  cases p with
  | sp => simp at hp
  | _ => rfl

/-- What a push leaves of the state (R190). -/
theorem State.pushed_changesOnly (s : State) (w : Word) (n : Byte) (h : s.sp.toNat < 16) :
    ChangesOnly [.stack ⟨s.sp.toNat, h⟩, .sp] s
      { s with stack := s.stack.set s.sp.toNat w h, sp := n } := by
  intro p hp
  cases p with
  | sp => simp at hp
  | stack j =>
    have hj : s.sp.toNat ≠ j.val := fun e => by simp [e] at hp
    simp [Agree, Vector.get_eq_getElem, hj]
  | _ => rfl

/-- A register list that holds every register up to Vx takes the place of V0..Vx only (R265). -/
theorem State.loadRegs_changesOnly (s : State) (x : RegIx) (bs : List Byte)
    (hlen : bs.length = x.val + 1) : ChangesOnly (regPieces x) s (s.loadRegs bs) := by
  intro p hp
  cases p with
  | reg j =>
    have hj : x.val < j.val := by simpa using hp
    simp [Agree, List.getElem?_eq_none (show bs.length ≤ j.val by omega)]
  | _ => simp [Agree]

theorem Agree.apply (h : Agree p s t) (d : Directive) (hp : p ≠ .pc) : Agree p s (t.apply d) :=
  h.trans (t.apply_changesOnly d p (by simpa using hp))

theorem ChangesOnly.apply (h : ChangesOnly ps s t) (d : Directive) :
    ChangesOnly (.pc :: ps) s (t.apply d) := h.trans (t.apply_changesOnly d)

/-- Bytes stored through `I` leave every other piece; a byte of memory outside them is only known to
read as before where memory is canonical. -/
theorem State.agree_setMem_setList (s : State) (bs : List Byte) (hp : p ∉ s.memPieces bs.length)
    (hwf : ∀ a, p = .mem a → s.mem.wf) : Agree p s (s.setMem (s.mem.setList (s.ea 0) bs)) := by
  cases p with
  | mem a =>
    have hout : ¬(s.ea 0 ≤ a ∧ a < s.ea 0 + bs.length) := fun ⟨h1, h2⟩ =>
      hp ((mem_memPieces ..).mpr
        ⟨a - s.ea 0, by omega, by simp only [State.ea] at *; congr 1; omega⟩)
    simp [Agree, Memory.get_setList bs s.mem (hwf a rfl).1, hout]
  | _ => rfl

theorem State.setMem_setList_changesOnly (hwf : s.mem.wf) (bs : List Byte) :
    ChangesOnly (s.memPieces bs.length) s (s.setMem (s.mem.setList (s.ea 0) bs)) := fun _ hp =>
  s.agree_setMem_setList bs hp fun _ _ => hwf

/-- The two states agree on every piece of the list. -/
def AgreeOn (ps : List Piece) (s s' : State) : Prop := ∀ p ∈ ps, Agree p s s'

theorem AgreeOn.mono (h : AgreeOn ps s s') (hs : qs ⊆ ps) : AgreeOn qs s s' := fun p hp => h p (hs hp)

/-- Two runs that change only `qs`, and end alike there, still agree on what they agreed on. -/
theorem AgreeOn.update (h : AgreeOn ps s s') (ht : ChangesOnly qs s t) (ht' : ChangesOnly qs s' t')
    (hq : AgreeOn qs t t') : AgreeOn (qs ++ ps) t t' := by
  intro p hp
  by_cases hm : p ∈ qs
  · exact hq p hm
  · exact ((ht p hm).symm.trans (h p ((List.mem_append.mp hp).resolve_left hm))).trans (ht' p hm)

theorem AgreeOn.setReg (h : AgreeOn ps s s') (x : RegIx) {b b' : Byte} (hb : b' = b) :
    AgreeOn (.reg x :: ps) (s.setReg x b) (s'.setReg x b') :=
  h.update (s.setReg_changesOnly x b) (s'.setReg_changesOnly x b') (by simp [AgreeOn, Agree, hb])

theorem AgreeOn.apply (h : AgreeOn ps s s') {d d' : Directive}
    (hpc : (s'.apply d').pc = (s.apply d).pc) : AgreeOn (.pc :: ps) (s.apply d) (s'.apply d') :=
  h.update (s.apply_changesOnly d) (s'.apply_changesOnly d') (by simpa [AgreeOn, Agree] using hpc)

end Sys2Proof.Machine
end

section
/-!
What each instruction that can raise answers: a raise, or its one whole effect. The other
instructions answer the state of their rule and nothing else, by the definition of `exec`. Last, what
a step that does not raise did.
-/

namespace Sys2Proof.Machine

variable {s t u : State}

/-- A state a fatal condition left. -/
def Raised (s t : State) : Prop := ∃ f, t = raise f s

theorem Raised.fault_ne_none (h : Raised s t) : t.fault ≠ none := by
  obtain ⟨f, rfl⟩ := h
  simp

/-- Of what an instruction can do, an unfaulted answer leaves its effect. -/
theorem of_raised_or {P : Prop} (h : Raised s t ∨ P) (hf : t.fault = none) : P :=
  h.resolve_left fun hr => hr.fault_ne_none hf

/-- The bytes an access through `I` reads (R266). -/
def State.bytesAtI (s : State) (n : Nat) : List Byte :=
  (List.range n).map fun k => s.mem.get (s.ea k)

@[simp] theorem State.bytesAtI_length (s : State) (n : Nat) : (s.bytesAtI n).length = n := by
  simp [State.bytesAtI]

theorem State.loadList_eq_bytesAtI {n : Nat} {bs : List Byte} (h : s.loadList (s.ea 0) n = .ok bs) :
    bs = s.bytesAtI n := by
  rcases s.loadList_cases n (s.ea 0) with ⟨-, h'⟩ | ⟨k, -, -, -, h'⟩
  · exact Except.ok.inj (h.symm.trans h')
  · exact nomatch h.symm.trans h'

theorem State.storeList_eq {bs : List Byte} (h : s.storeList (s.ea 0) bs = .ok u) :
    (∀ k < bs.length, s.ea k ≤ 0xFFF) ∧ u = s.setMem (s.mem.setList (s.ea 0) bs) := by
  rcases s.storeList_cases bs (s.ea 0) with ⟨hin, h'⟩ | ⟨k, -, -, -, h'⟩
  · exact ⟨hin, Except.ok.inj (h.symm.trans h')⟩
  · exact nomatch h.symm.trans h'

/-- A handler that ends by applying a directive raised, or its statements ran to the end. -/
theorem finish_map_raised_or {α : Type} {r : Run α} {f : α → State}
    (h : finish s (r.map f) = .next t) : Raised s t ∨ ∃ a, r = .ok a ∧ t = f a := by
  rcases finish_map_cases h with h | ⟨e, -, rfl⟩
  · exact .inr h
  · exact .inl ⟨e, rfl⟩

theorem exec_ret_cases (hx : exec .ret s = .next t) :
    Raised s t ∨ ∃ h : s.sp.toNat - 1 < 16, 0 < s.sp.toNat ∧
      t = State.apply { s with sp := s.sp - 1 } (.jump (s.stack.get ⟨s.sp.toNat - 1, h⟩)) := by
  refine (finish_map_raised_or hx).imp_right ?_
  rintro ⟨p, hp, rfl⟩
  rcases s.pop_cases with ⟨-, h'⟩ | ⟨h, hpos, h'⟩ | ⟨-, h'⟩
  · exact nomatch hp.symm.trans h'
  · cases hp.symm.trans h'
    exact ⟨h, hpos, rfl⟩
  · exact nomatch hp.symm.trans h'

theorem exec_call_cases {nnn : Addr} (hx : exec (.call nnn) s = .next t) :
    Raised s t ∨ ∃ h : s.sp.toNat < 16, t = State.apply
      { s with stack := s.stack.set s.sp.toNat s.returnAddr h, sp := s.sp + 1 }
      (.jump (zextAddr nnn)) := by
  refine (finish_map_raised_or hx).imp_right ?_
  rintro ⟨u, hu, rfl⟩
  rcases s.push_cases s.returnAddr with ⟨h, h'⟩ | ⟨-, h'⟩ | ⟨-, h'⟩
  · cases hu.symm.trans h'
    exact ⟨h, rfl⟩
  · exact nomatch hu.symm.trans h'
  · exact nomatch hu.symm.trans h'

/-- The framebuffer and the collision of an n-row sprite at (Vx, Vy) (R171). -/
def State.drawn (s : State) (x y : RegIx) (n : Rows) : Framebuffer × Bool :=
  drawRows (s.reg x) (s.reg y) 0 (s.bytesAtI n.val) (s.fb, false)

theorem exec_drw_cases {x y : RegIx} {n : Rows} (hx : exec (.drw x y n) s = .next t) :
    Raised s t ∨ t = ((s.setFb (s.drawn x y n).1).setReg 15
      (collisionFlag s.cfg (s.reg 15) (s.drawn x y n).2)).apply .next := by
  refine (finish_map_raised_or hx).imp_right ?_
  rintro ⟨bs, hbs, rfl⟩
  rw [State.loadList_eq_bytesAtI hbs]
  rfl

theorem State.key_eq {k : Byte} {down : Bool} (h : s.key k = .ok down) :
    ∃ hk : k.toNat < 16, down = s.keys.get ⟨k.toNat, hk⟩ := by
  rcases s.key_cases k with ⟨hk, h'⟩ | ⟨-, h'⟩
  · exact ⟨hk, Except.ok.inj (h.symm.trans h')⟩
  · exact nomatch h.symm.trans h'

theorem exec_skp_cases {x : RegIx} (hx : exec (.skp x) s = .next t) :
    Raised s t ∨ ∃ h : (s.reg x).toNat < 16,
      t = s.apply (.skipIf (s.keys.get ⟨(s.reg x).toNat, h⟩)) := by
  refine (finish_map_raised_or hx).imp_right ?_
  rintro ⟨down, hdown, rfl⟩
  obtain ⟨h, rfl⟩ := State.key_eq hdown
  exact ⟨h, rfl⟩

theorem exec_sknp_cases {x : RegIx} (hx : exec (.sknp x) s = .next t) :
    Raised s t ∨ ∃ h : (s.reg x).toNat < 16,
      t = s.apply (.skipIf (!s.keys.get ⟨(s.reg x).toNat, h⟩)) := by
  refine (finish_map_raised_or hx).imp_right ?_
  rintro ⟨down, hdown, rfl⟩
  obtain ⟨h, rfl⟩ := State.key_eq hdown
  exact ⟨h, rfl⟩

theorem exec_addIVx_cases {x : RegIx} (hx : exec (.addIVx x) s = .next t) :
    Raised s t ∨ t = (s.setIreg (s.ireg + zextByte (s.reg x))).apply .next := by
  refine (finish_map_raised_or hx).imp_right ?_
  rintro ⟨w, hw, rfl⟩
  rcases s.indexSum_cases x with ⟨-, h'⟩ | ⟨-, h'⟩
  · cases hw.symm.trans h'
    rfl
  · exact nomatch hw.symm.trans h'

/-- The common end of Fx33 and Fx55: bytes stored from `I` on, inside the address space. -/
theorem finish_storeList_cases {bs : List Byte}
    (hx : finish s ((s.storeList (s.ea 0) bs).map fun u => u.apply .next) = .next t) :
    Raised s t ∨ ((∀ k < bs.length, s.ea k ≤ 0xFFF) ∧
      t = (s.setMem (s.mem.setList (s.ea 0) bs)).apply .next) := by
  refine (finish_map_raised_or hx).imp_right ?_
  rintro ⟨u, hu, rfl⟩
  obtain ⟨hin, rfl⟩ := State.storeList_eq hu
  exact ⟨hin, rfl⟩

theorem exec_ldBVx_cases {x : RegIx} (hx : exec (.ldBVx x) s = .next t) :
    Raised s t ∨ ((∀ k < (decimalDigits (s.reg x)).length, s.ea k ≤ 0xFFF) ∧
      t = (s.setMem (s.mem.setList (s.ea 0) (decimalDigits (s.reg x)))).apply .next) :=
  finish_storeList_cases hx

theorem exec_ldMemVx_cases {x : RegIx} (hx : exec (.ldMemVx x) s = .next t) :
    Raised s t ∨ ((∀ k < (s.regsUpTo x).length, s.ea k ≤ 0xFFF) ∧
      t = (s.setMem (s.mem.setList (s.ea 0) (s.regsUpTo x))).apply .next) :=
  finish_storeList_cases hx

theorem exec_ldVxMem_cases {x : RegIx} (hx : exec (.ldVxMem x) s = .next t) :
    Raised s t ∨ t = (s.loadRegs (s.bytesAtI (x.val + 1))).apply .next := by
  refine (finish_map_raised_or hx).imp_right ?_
  rintro ⟨bs, hbs, rfl⟩
  rw [State.loadList_eq_bytesAtI hbs]

/-- What an unfaulted step that ends unfaulted did: it was a wait step, or it ran the instruction at
`pc` to its end. -/
theorem step_unfaulted_cases (hs : s.fault = none) (hstep : step s = .next t)
    (ht : t.fault = none) :
    (∃ x, s.wait = .awaitingKey x ∧ t = s.latch.resolveWait x) ∨
    ∃ i, s.AboutToRun i ∧ exec i s.latch.tick = .next t := by
  rcases step_cases s with ⟨h, -⟩ | ⟨-, x, hw, h⟩ | ⟨-, hw, h⟩
  · exact absurd hs h
  · exact .inl ⟨x, hw, Host.Outcome.next.inj (hstep.symm.trans h)⟩
  · rw [h] at hstep
    rcases s.latch.tick.runInstr_cases with ⟨-, hr⟩ | ⟨hpc, w, rfl, ⟨e, -, hr⟩ | ⟨i, hd, hr⟩⟩
    · cases hstep.symm.trans hr
      simp at ht
    · cases hstep.symm.trans hr
      simp at ht
    · exact .inr ⟨i, ⟨hs, hw, by simpa using hpc, by simpa [State.wordAtPc] using hd⟩, hr ▸ hstep⟩

theorem State.AboutToRun.unique {i j : Instr} (h : s.AboutToRun i) (h' : s.AboutToRun j) : i = j :=
  Except.ok.inj (h.decodes.symm.trans h'.decodes)

end Sys2Proof.Machine
end

section
/-!
O13: the invariant through the phases of a step and the directives of its instruction.
-/

namespace Sys2Proof.Machine

variable {s t : State}

/-- The invariant speaks of five fields only. -/
theorem State.Inv.congr (h : s.Inv) (hm : t.mem = s.mem) (hf : t.fault = s.fault)
    (hpc : t.pc = s.pc) (hsp : t.sp = s.sp) (hst : t.stack = s.stack) : t.Inv := by
  refine ⟨hm ▸ h.mem_wf, fun hn => ?_⟩
  obtain ⟨bsp, bpc, bst⟩ := h.bounded (hf ▸ hn)
  exact ⟨hsp ▸ bsp, hpc ▸ bpc, hst ▸ bst⟩

/-- A raise leaves canonical memory, and a faulted core has no bounds to meet (R321). -/
theorem Raised.inv (h : Raised s t) : t.Inv := by
  obtain ⟨f, rfl⟩ := h
  exact ⟨raise_mem_wf f s, fun hn => by simp at hn⟩

theorem State.Inv.apply (h : s.Inv) {d : Directive} (hd : (s.apply d).pc.toNat ≤ 0x10FE) :
    (s.apply d).Inv := by
  refine ⟨by simpa using h.mem_wf, fun hn => ?_⟩
  obtain ⟨bsp, -, bst⟩ := h.bounded (by simpa using hn)
  exact ⟨by simpa using bsp, hd, by simpa using bst⟩

theorem State.Inv.next (h : s.Inv) (hpc : s.pc.toNat ≤ 0xFFE) : (s.apply .next).Inv :=
  h.apply (by rw [State.apply_next_pc]; bv_omega)

/-- NEXT after writes to none of the invariant's fields. -/
theorem State.Inv.next_of_unchanged (h : s.Inv) (hpc : s.pc.toNat ≤ 0xFFE) (hm : t.mem = s.mem)
    (hf : t.fault = s.fault) (hpc' : t.pc = s.pc) (hsp : t.sp = s.sp) (hst : t.stack = s.stack) :
    (t.apply .next).Inv :=
  (h.congr hm hf hpc' hsp hst).next (hpc' ▸ hpc)

theorem State.Inv.skipIf (h : s.Inv) (hpc : s.pc.toNat ≤ 0xFFE) (c : Bool) :
    (s.apply (.skipIf c)).Inv := by
  cases c with
  | false => exact h.next hpc
  | true => exact h.apply (by rw [State.apply_skipIf_pc, if_pos rfl]; bv_omega)

theorem zextAddr_le (nnn : Addr) : (zextAddr nnn).toNat ≤ 0xFFF := by
  have := nnn.isLt
  rw [zextAddr, BitVec.toNat_setWidth]
  omega

theorem State.offsetTarget_le (s : State) (nnn : Addr) : (s.offsetTarget nnn).toNat ≤ 0x10FE := by
  have h1 := zextAddr_le nnn
  have h2 := (s.reg 0).isLt
  rw [State.offsetTarget, zextByte, BitVec.toNat_add, BitVec.toNat_setWidth]
  omega

/-- Bytes stored inside the address space keep the invariant. -/
theorem State.Inv.setMem_setList (h : s.Inv) {bs : List Byte}
    (hin : ∀ k < bs.length, s.ea k ≤ 0xFFF) :
    (s.setMem (s.mem.setList (s.ea 0) bs)).Inv := by
  refine ⟨?_, fun hn => ?_⟩
  · cases bs with
    | nil => exact h.mem_wf
    | cons b bs =>
      have hlast := hin bs.length (by simp)
      refine Memory.setList_wf _ _ h.mem_wf _ ?_
      simp only [State.ea, List.length_cons] at hlast ⊢
      omega
  · obtain ⟨bsp, bpc, bst⟩ := h.bounded hn
    exact ⟨bsp, bpc, bst⟩

theorem State.Inv.popped (h : s.Inv) (hpos : 0 < s.sp.toNat) :
    ({ s with sp := s.sp - 1 } : State).Inv := by
  refine ⟨h.mem_wf, fun hn => ?_⟩
  obtain ⟨bsp, bpc, bst⟩ := h.bounded hn
  refine ⟨?_, bpc, bst⟩
  change (s.sp - 1).toNat ≤ 16
  bv_omega

theorem State.Inv.pushed (h : s.Inv) (hlt : s.sp.toNat < 16) {w : Word} (hw : w.toNat ≤ 0x1000) :
    ({ s with stack := s.stack.set s.sp.toNat w hlt, sp := s.sp + 1 } : State).Inv := by
  refine ⟨h.mem_wf, fun hn => ?_⟩
  obtain ⟨bsp, bpc, bst⟩ := h.bounded hn
  refine ⟨?_, bpc, fun j => ?_⟩
  · change (s.sp + 1).toNat ≤ 16
    bv_omega
  · change ((s.stack.set s.sp.toNat w hlt).get j).toNat ≤ 0x1000
    rw [Vector.get_eq_getElem, Vector.getElem_set]
    split
    · exact hw
    · exact bst j

theorem State.returnAddr_le (hpc : s.pc.toNat ≤ 0xFFE) : s.returnAddr.toNat ≤ 0x1000 := by
  rw [State.returnAddr]
  bv_omega

/-- An instruction at an address a fetch succeeds from keeps the invariant. -/
theorem exec_inv (i : Instr) (h : s.Inv) (hf : s.fault = none) (hpc : s.pc.toNat ≤ 0xFFE)
    (hx : exec i s = .next t) : t.Inv := by
  cases i with
  | seImm | sneImm | seReg | sneReg => cases hx; exact h.skipIf hpc _
  | jp nnn => cases hx; exact h.apply ((zextAddr_le nnn).trans (by decide))
  | jpV0 nnn => cases hx; exact h.apply (s.offsetTarget_le nnn)
  | ret =>
    rcases exec_ret_cases hx with hr | ⟨hlt, hpos, rfl⟩
    · exact hr.inv
    · exact (h.popped hpos).apply (((h.bounded hf).stack_le _).trans (by decide))
  | call nnn =>
    rcases exec_call_cases hx with hr | ⟨hlt, rfl⟩
    · exact hr.inv
    · exact (h.pushed hlt (State.returnAddr_le hpc)).apply ((zextAddr_le nnn).trans (by decide))
  | skp x =>
    rcases exec_skp_cases hx with hr | ⟨-, rfl⟩
    · exact hr.inv
    · exact h.skipIf hpc _
  | sknp x =>
    rcases exec_sknp_cases hx with hr | ⟨-, rfl⟩
    · exact hr.inv
    · exact h.skipIf hpc _
  | ldBVx x =>
    rcases exec_ldBVx_cases hx with hr | ⟨hin, rfl⟩
    · exact hr.inv
    · exact (h.setMem_setList hin).next hpc
  | ldMemVx x =>
    rcases exec_ldMemVx_cases hx with hr | ⟨hin, rfl⟩
    · exact hr.inv
    · exact (h.setMem_setList hin).next hpc
  | drw x y n =>
    rcases exec_drw_cases hx with hr | rfl
    · exact hr.inv
    · exact h.next_of_unchanged hpc rfl rfl rfl rfl rfl
  | addIVx x =>
    rcases exec_addIVx_cases hx with hr | rfl
    · exact hr.inv
    · exact h.next_of_unchanged hpc rfl rfl rfl rfl rfl
  | ldVxMem x =>
    rcases exec_ldVxMem_cases hx with hr | rfl
    · exact hr.inv
    · exact h.next_of_unchanged hpc (s.loadRegs_mem _) (s.loadRegs_fault _) (s.loadRegs_pc _)
        (s.loadRegs_sp _) (s.loadRegs_stack _)
  | _ => cases hx; exact h.next_of_unchanged hpc rfl rfl rfl rfl rfl

theorem State.Inv.resolveWait (h : s.Inv) (x : RegIx) : (s.resolveWait x).Inv := by
  rcases s.resolveWait_cases x with ⟨k, -, hk⟩ | ⟨-, hk⟩
  · rw [hk]
    exact h.congr rfl rfl rfl rfl rfl
  · rwa [hk]

theorem State.Inv.latch (h : s.Inv) : s.latch.Inv := h.congr rfl rfl rfl rfl rfl

theorem State.Inv.tick (h : s.Inv) : s.tick.Inv :=
  h.congr s.tick_mem s.tick_fault s.tick_pc s.tick_sp s.tick_stack

/-- Settles O13: the latch, the wait and the tick leave the fields of the invariant alone, a raise
leaves canonical memory, and every instruction keeps the invariant from a `pc` that was fetched. -/
theorem stepKeepsInvariant : Obligations.StepKeepsInvariant := by
  unfold Obligations.StepKeepsInvariant
  intro s t hinv hstep
  rcases step_cases s with ⟨-, h⟩ | ⟨-, x, -, h⟩ | ⟨hf, -, h⟩
  · cases hstep.symm.trans h
    exact hinv
  · cases hstep.symm.trans h
    exact hinv.latch.resolveWait x
  · rcases s.latch.tick.runInstr_cases with ⟨-, hr⟩ | ⟨hpc, w, -, ⟨e, -, hr⟩ | ⟨i, -, hr⟩⟩
    · cases hstep.symm.trans (h.trans hr)
      exact Raised.inv ⟨_, rfl⟩
    · cases hstep.symm.trans (h.trans hr)
      exact Raised.inv ⟨_, rfl⟩
    · exact exec_inv i hinv.latch.tick (by simpa using hf) hpc (hr.symm.trans (h.symm.trans hstep))

end Sys2Proof.Machine
end

section
/-!
The "writes" column of R51 (O58) and what it gives for `dirty` and `wait` (O17, O18).
-/

namespace Sys2Proof.Machine

variable {s t : State}

/-- R51, piece by piece: what an instruction that does not raise leaves as it was. Only a byte of
memory asks for canonical memory. -/
theorem exec_agree {p : Piece} (i : Instr) (hx : exec i s = .next t) (hf : t.fault = none)
    (hp : p ∉ .pc :: writes i s) (hwf : ∀ a, p = .mem a → s.mem.wf) : Agree p s t := by
  cases i with
  | sys | jp | seImm | sneImm | seReg | sneReg | jpV0 =>
    cases hx
    exact (ChangesOnly.refl s).apply _ p hp
  | ldImm x | addImm x | ldReg x | orReg x | andReg x | xorReg x | rnd x | ldVxDt x =>
    cases hx
    exact (s.setReg_changesOnly x _).apply _ p hp
  | addReg | sub | shr | subn | shl =>
    cases hx
    exact (s.setReg_setReg_changesOnly _ _ _ _).apply _ p hp
  | cls =>
    cases hx
    exact (s.setFb_changesOnly _).apply _ p hp
  | ldI | ldFVx =>
    cases hx
    exact (s.setIreg_changesOnly _).apply _ p hp
  | ldVxK =>
    cases hx
    exact (s.setWait_changesOnly _).apply _ p hp
  | ldDtVx =>
    cases hx
    exact (s.setDt_changesOnly _).apply _ p hp
  | ldStVx =>
    cases hx
    exact (s.setSt_changesOnly _).apply _ p hp
  | ret =>
    obtain ⟨_, -, rfl⟩ := of_raised_or (exec_ret_cases hx) hf
    exact (s.popped_changesOnly _).apply _ p hp
  | call nnn =>
    obtain ⟨hlt, rfl⟩ := of_raised_or (exec_call_cases hx) hf
    rw [writes, dif_pos hlt] at hp
    exact (s.pushed_changesOnly _ _ hlt).apply _ p hp
  | drw x y n =>
    obtain rfl := of_raised_or (exec_drw_cases hx) hf
    exact ((s.setFb_changesOnly _).trans (State.setReg_changesOnly _ 15 _)).apply _ p hp
  | skp x =>
    obtain ⟨_, rfl⟩ := of_raised_or (exec_skp_cases hx) hf
    exact (ChangesOnly.refl s).apply _ p hp
  | sknp x =>
    obtain ⟨_, rfl⟩ := of_raised_or (exec_sknp_cases hx) hf
    exact (ChangesOnly.refl s).apply _ p hp
  | addIVx x =>
    obtain rfl := of_raised_or (exec_addIVx_cases hx) hf
    exact (s.setIreg_changesOnly _).apply _ p hp
  | ldBVx x =>
    obtain ⟨-, rfl⟩ := of_raised_or (exec_ldBVx_cases hx) hf
    obtain ⟨hpc, hm⟩ := not_or.mp (List.mem_cons.not.mp hp)
    exact (s.agree_setMem_setList _ hm hwf).apply _ hpc
  | ldMemVx x =>
    obtain ⟨-, rfl⟩ := of_raised_or (exec_ldMemVx_cases hx) hf
    rw [writes, ← s.regsUpTo_length x] at hp
    obtain ⟨hpc, hm⟩ := not_or.mp (List.mem_cons.not.mp hp)
    exact (s.agree_setMem_setList _ hm hwf).apply _ hpc
  | ldVxMem x =>
    obtain rfl := of_raised_or (exec_ldVxMem_cases hx) hf
    exact (s.loadRegs_changesOnly x _ (s.bytesAtI_length _)).apply _ p hp

/-- Settles O58: the frame of each instruction, over every piece. -/
theorem everyInstructionWritesItsRow : Obligations.EveryInstructionWritesItsRow := by
  unfold Obligations.EveryInstructionWritesItsRow
  intro i s t hwf _ hx hf p hp
  exact exec_agree i hx hf hp fun _ _ => hwf

/-- Only 00E0 and Dxyn have `dirty` in their row, and both set it. -/
theorem exec_dirty (i : Instr) (hx : exec i s = .next t) (hf : t.fault = none) :
    t.dirty = true ↔ s.dirty = true ∨ i = .cls ∨ ∃ x y n, i = .drw x y n := by
  have hframe : .dirty ∉ .pc :: writes i s → t.dirty = s.dirty := fun hp =>
    exec_agree (p := .dirty) i hx hf hp nofun
  cases i with
  | cls => cases hx; simp
  | drw x y n =>
    obtain rfl := of_raised_or (exec_drw_cases hx) hf
    simp
  | call => simp [hframe (by rw [writes]; split <;> simp)]
  | ldBVx | ldMemVx => simp [hframe (by simp [writes, mem_memPieces])]
  | ldVxMem => simp [hframe (by simp [writes, mem_regPieces])]
  | _ => simp [hframe (by simp [writes])]

/-- Only Fx0A has `wait` in its row, and it names its own register. -/
theorem exec_wait (i : Instr) (hx : exec i s = .next t) (hf : t.fault = none) :
    t.wait = s.wait ∨ ∃ x, i = .ldVxK x ∧ t.wait = .awaitingKey x := by
  have hframe : .wait ∉ .pc :: writes i s → t.wait = s.wait := fun hp =>
    exec_agree (p := .wait) i hx hf hp nofun
  cases i with
  | ldVxK x => cases hx; exact .inr ⟨x, rfl, rfl⟩
  | call => exact .inl (hframe (by rw [writes]; split <;> simp))
  | ldBVx | ldMemVx => exact .inl (hframe (by simp [writes, mem_memPieces]))
  | ldVxMem => exact .inl (hframe (by simp [writes, mem_regPieces]))
  | _ => exact .inl (hframe (by simp [writes]))

@[simp] theorem State.resolveWait_dirty (s : State) (x : RegIx) :
    (s.resolveWait x).dirty = s.dirty := by
  rcases s.resolveWait_cases x with ⟨k, -, h⟩ | ⟨-, h⟩ <;> simp [h]

@[simp] theorem State.resolveWait_keys (s : State) (x : RegIx) :
    (s.resolveWait x).keys = s.keys := by
  rcases s.resolveWait_cases x with ⟨k, -, h⟩ | ⟨-, h⟩ <;> simp [h]

/-- Settles O17: phase 1 clears `dirty`, and of the instructions only 00E0 and Dxyn set it. -/
theorem dirtyExactlyAfterClearOrDraw : Obligations.DirtyExactlyAfterClearOrDraw := by
  unfold Obligations.DirtyExactlyAfterClearOrDraw
  intro s t hs hstep hf
  rcases step_unfaulted_cases hs hstep hf with ⟨x, hw, rfl⟩ | ⟨i, hi, hx⟩
  · have hnot : ∀ j, ¬s.AboutToRun j := fun j hj => nomatch hw.symm.trans hj.running
    simp [hnot]
  · have hruns : ∀ j, s.AboutToRun j ↔ i = j := fun j => ⟨hi.unique, fun h => h ▸ hi⟩
    simpa [hruns] using exec_dirty i hx hf

/-- Settles O18: `wait` is in the row of Fx0A alone, and a wait step only resolves or waits on. -/
theorem waitEnteredAndLeft : Obligations.WaitEnteredAndLeft := by
  unfold Obligations.WaitEnteredAndLeft
  refine ⟨rfl, fun s t x hs hw hstep hf ht => ?_, fun s t x hs hw hstep => ?_⟩
  · rcases step_unfaulted_cases hs hstep hf with ⟨y, hy, -⟩ | ⟨i, hi, hx⟩
    · exact nomatch hw.symm.trans hy
    · rcases exec_wait i hx hf with h | ⟨y, rfl, h⟩
      · simp [hw, ht] at h
      · cases ht.symm.trans h
        exact hi
  · rcases step_cases s with ⟨h, -⟩ | ⟨-, y, hy, h⟩ | ⟨-, hr, -⟩
    · exact absurd hs h
    · cases hw.symm.trans hy
      cases hstep.symm.trans h
      rcases s.latch.resolveWait_cases x with ⟨k, hk, e⟩ | ⟨-, e⟩
      · refine .inr ⟨by simp [e], k, ?_⟩
        obtain ⟨hdown, hlow⟩ := lowestKey_some hk
        refine ⟨by rwa [State.resolveWait_keys], by rwa [State.resolveWait_keys], ?_⟩
        simp [e]
        omega
      · exact .inl (by simp [e, hw])
    · exact nomatch hw.symm.trans hr

end Sys2Proof.Machine
end

section
/-!
The "reads" column of R51 (O59): what an instruction writes is computed from the pieces of its row,
so two states that agree there agree on it afterwards.
-/

namespace Sys2Proof.Machine

variable {ps qs : List Piece} {s s' t t' : State}

theorem AgreeOn.reg (h : AgreeOn ps s s') (x : RegIx) (hx : .reg x ∈ ps := by simp [reads]) :
    s'.reg x = s.reg x := h _ hx

theorem AgreeOn.pc (h : AgreeOn ps s s') (hp : .pc ∈ ps := by simp [reads]) : s'.pc = s.pc := h _ hp

theorem AgreeOn.sp (h : AgreeOn ps s s') (hp : .sp ∈ ps := by simp [reads]) : s'.sp = s.sp := h _ hp

theorem AgreeOn.ea (h : AgreeOn ps s s') (k : Nat) (hi : .ireg ∈ ps := by simp [reads]) :
    s'.ea k = s.ea k :=
  congrArg (·.toNat + k) (h .ireg hi)

theorem AgreeOn.next (h : AgreeOn ps s s') (hp : .pc ∈ ps := by simp [reads]) :
    AgreeOn (.pc :: ps) (s.apply .next) (s'.apply .next) :=
  h.apply (by simp [h.pc hp])

theorem AgreeOn.skipIf (h : AgreeOn ps s s') {c c' : Bool} (hc : c' = c)
    (hp : .pc ∈ ps := by simp [reads]) :
    AgreeOn (.pc :: ps) (s.apply (.skipIf c)) (s'.apply (.skipIf c')) :=
  h.apply (by simp [h.pc hp, hc])

theorem AgreeOn.jump (h : AgreeOn ps s s') {a a' : Word} (ha : a' = a) :
    AgreeOn (.pc :: ps) (s.apply (.jump a)) (s'.apply (.jump a')) :=
  h.apply (by simp [ha])

theorem AgreeOn.setVf (h : AgreeOn ps s s') {b b' : Byte} (hb : b' = b) :
    AgreeOn (.reg 15 :: ps) (s.setVf b) (s'.setVf b') := h.setReg 15 hb

theorem AgreeOn.setIreg (h : AgreeOn ps s s') {w w' : Word} (hw : w' = w) :
    AgreeOn (.ireg :: ps) (s.setIreg w) (s'.setIreg w') :=
  h.update (s.setIreg_changesOnly w) (s'.setIreg_changesOnly w') (by simp [AgreeOn, Agree, hw])

theorem AgreeOn.setFb (h : AgreeOn ps s s') {f f' : Framebuffer} (hf : f' = f) :
    AgreeOn (.fb :: .dirty :: ps) (s.setFb f) (s'.setFb f') :=
  h.update (s.setFb_changesOnly f) (s'.setFb_changesOnly f') (by simp [AgreeOn, Agree, hf])

theorem AgreeOn.setWait (h : AgreeOn ps s s') (w : Wait) :
    AgreeOn (.wait :: ps) (s.setWait w) (s'.setWait w) :=
  h.update (s.setWait_changesOnly w) (s'.setWait_changesOnly w) (by simp [AgreeOn, Agree])

theorem AgreeOn.setDt (h : AgreeOn ps s s') {b b' : Byte} (hb : b' = b) :
    AgreeOn (.dt :: ps) (s.setDt b) (s'.setDt b') :=
  h.update (s.setDt_changesOnly b) (s'.setDt_changesOnly b') (by simp [AgreeOn, Agree, hb])

theorem AgreeOn.setSt (h : AgreeOn ps s s') {b b' : Byte} (hb : b' = b) :
    AgreeOn (.st :: ps) (s.setSt b) (s'.setSt b') :=
  h.update (s.setSt_changesOnly b) (s'.setSt_changesOnly b') (by simp [AgreeOn, Agree, hb])

/-- A pop leaves equal SP (R191). -/
theorem AgreeOn.setSp (h : AgreeOn ps s s') {b b' : Byte} (hb : b' = b) :
    AgreeOn (.sp :: ps) { s with sp := b } { s' with sp := b' } :=
  h.update (s.popped_changesOnly b) (s'.popped_changesOnly b') (by simp [AgreeOn, Agree, hb])

/-- A push of equal words at equal depths (R190). -/
theorem AgreeOn.push (h : AgreeOn ps s s') {w w' : Word} (hw : w' = w) (hlt : s.sp.toNat < 16)
    (hlt' : s'.sp.toNat < 16) (hi : .sp ∈ ps := by simp [reads]) :
    AgreeOn (.stack ⟨s.sp.toNat, hlt⟩ :: .sp :: ps)
      { s with stack := s.stack.set s.sp.toNat w hlt, sp := s.sp + 1 }
      { s' with stack := s'.stack.set s'.sp.toNat w' hlt', sp := s'.sp + 1 } := by
  have hsp := h.sp hi
  have hpos : (⟨s'.sp.toNat, hlt'⟩ : Fin 16) = ⟨s.sp.toNat, hlt⟩ := by simp [hsp]
  refine h.update (s.pushed_changesOnly w _ hlt) (hpos ▸ s'.pushed_changesOnly w' _ hlt') ?_
  simp [AgreeOn, Agree, Vector.get_eq_getElem, hsp, hw]

/-- Registers loaded from a list that reaches Vx hold its bytes, whatever they held before. -/
theorem AgreeOn.loadRegs (h : AgreeOn ps s s') (x : RegIx) {bs : List Byte}
    (hlen : bs.length = x.val + 1) :
    AgreeOn (regPieces x ++ ps) (s.loadRegs bs) (s'.loadRegs bs) := by
  refine h.update (s.loadRegs_changesOnly x bs hlen) (s'.loadRegs_changesOnly x bs hlen)
    fun p hp => ?_
  obtain ⟨j, hj, rfl⟩ := (mem_regPieces x p).mp hp
  have hin : j.val < bs.length := by rw [hlen]; exact Nat.lt_succ_of_le hj
  simp [Agree, List.getElem?_eq_getElem hin]

/-- Equal bytes stored from the same `I` on in canonical memories read alike. -/
theorem AgreeOn.store (h : AgreeOn ps s s') (hwf : s.mem.wf) (hwf' : s'.mem.wf)
    (hi : .ireg ∈ ps) (bs : List Byte) :
    AgreeOn (s.memPieces bs.length ++ ps) (s.setMem (s.mem.setList (s.ea 0) bs))
      (s'.setMem (s'.mem.setList (s'.ea 0) bs)) := by
  have hpieces : s'.memPieces bs.length = s.memPieces bs.length :=
    List.map_congr_left fun k _ => congrArg Piece.mem (h.ea k hi)
  refine h.update (State.setMem_setList_changesOnly hwf bs)
    (hpieces ▸ State.setMem_setList_changesOnly hwf' bs) fun p hp => ?_
  obtain ⟨k, hk, rfl⟩ := (mem_memPieces ..).mp hp
  rw [h.ea 0 hi]
  simp [Agree, Memory.get_setList bs _ hwf.1, Memory.get_setList bs _ hwf'.1, State.ea, hk]

theorem AgreeOn.bytesAtI {n : Nat} (h : AgreeOn ps s s') (hi : .ireg ∈ ps)
    (hm : s.memPieces n ⊆ ps) : s'.bytesAtI n = s.bytesAtI n := by
  refine List.map_congr_left fun k hk => ?_
  rw [h.ea k hi]
  exact h (.mem (s.ea k)) (hm ((mem_memPieces ..).mpr ⟨k, List.mem_range.mp hk, rfl⟩))

theorem AgreeOn.regsUpTo (h : AgreeOn ps s s') (x : RegIx) (hx : regPieces x ⊆ ps) :
    s'.regsUpTo x = s.regsUpTo x := by
  refine List.ext_getElem (by simp only [State.regsUpTo_length]) fun k hk' hk => ?_
  have hkx : k < x.val + 1 := s.regsUpTo_length x ▸ hk
  rw [s'.regsUpTo_getElem x k hk' (by omega), s.regsUpTo_getElem x k hk (by omega)]
  exact h.reg _ (hx ((reg_mem_regPieces ..).mpr (Fin.mk_le_of_le_val (by omega))))

/-- The flag of Dxyn reads the prior VF under `keep` only (R173). -/
theorem collisionFlag_congr {p p' : Params} {v v' : Byte} (c : Bool)
    (hp : p'.drawVfInit = p.drawVfInit) (hv : p.drawVfInit = .keep → v' = v) :
    collisionFlag p' v' c = collisionFlag p v c := by
  cases hk : p.drawVfInit with
  | clear => simp [collisionFlag, hp, hk]
  | keep => simp [collisionFlag, hp, hk, hv hk]

/-- The sprite of Dxyn reads the coordinates, its bytes and the framebuffer (R171). -/
theorem AgreeOn.drawn {x y : RegIx} {n : Rows} (h : AgreeOn ps s s') (hx : s'.reg x = s.reg x)
    (hy : s'.reg y = s.reg y) (hi : .ireg ∈ ps) (hfb : .fb ∈ ps) (hm : s.memPieces n.val ⊆ ps) :
    s'.drawn x y n = s.drawn x y n := by
  have hfb' : s'.fb = s.fb := h .fb hfb
  rw [State.drawn, State.drawn, hx, hy, hfb', h.bytesAtI hi hm]

/-- The entry a pop gives (R191). -/
theorem AgreeOn.popped (h : AgreeOn (reads .ret s) s s') (hlt : s.sp.toNat - 1 < 16)
    (hlt' : s'.sp.toNat - 1 < 16) :
    s'.stack.get ⟨s'.sp.toNat - 1, hlt'⟩ = s.stack.get ⟨s.sp.toNat - 1, hlt⟩ := by
  have hsp := h.sp
  have htop := h (.stack ⟨s.sp.toNat - 1, hlt⟩) (by simp [reads, hlt])
  simp only [hsp]
  exact htop

/-- The key Vx names (R15). -/
theorem AgreeOn.keyOf {x : RegIx} (h : AgreeOn ps s s') (hx : s'.reg x = s.reg x)
    (hk : s.keyPiece x ⊆ ps) (hlt : (s.reg x).toNat < 16) (hlt' : (s'.reg x).toNat < 16) :
    s'.keys.get ⟨(s'.reg x).toNat, hlt'⟩ = s.keys.get ⟨(s.reg x).toNat, hlt⟩ := by
  have hkey := h (.key ⟨(s.reg x).toNat, hlt⟩) (hk (by simp [s.keyPiece_eq x hlt]))
  simp only [hx]
  exact hkey

/-- R51: what an instruction writes is a function of what its row reads. -/
theorem exec_agreeOn (i : Instr) (hwf : s.mem.wf) (hwf' : s'.mem.wf) (hx : exec i s = .next t)
    (hx' : exec i s' = .next t') (hf : t.fault = none) (hf' : t'.fault = none)
    (hr : AgreeOn (reads i s) s s') : AgreeOn (.pc :: writes i s) t t' := by
  cases i with
  | cls =>
    cases hx; cases hx'
    exact (hr.setFb rfl).next.mono (by simp [writes])
  | sys =>
    cases hx; cases hx'
    exact hr.next.mono (by simp [writes])
  | jp =>
    cases hx; cases hx'
    exact (hr.jump rfl).mono (by simp [writes])
  | jpV0 nnn =>
    cases hx; cases hx'
    exact (hr.jump (by simp [State.offsetTarget, hr.reg 0])).mono (by simp [writes])
  | seImm x | sneImm x =>
    cases hx; cases hx'
    exact (hr.skipIf (by rw [hr.reg x])).mono (by simp [writes])
  | seReg x y | sneReg x y =>
    cases hx; cases hx'
    exact (hr.skipIf (by rw [hr.reg x, hr.reg y])).mono (by simp [writes])
  | ldImm x =>
    cases hx; cases hx'
    exact (hr.setReg x rfl).next.mono (by simp [writes])
  | addImm x =>
    cases hx; cases hx'
    exact (hr.setReg x (by rw [hr.reg x])).next.mono (by simp [writes])
  | ldReg x y =>
    cases hx; cases hx'
    exact (hr.setReg x (hr.reg y)).next.mono (by simp [writes])
  | orReg x y | andReg x y | xorReg x y =>
    cases hx; cases hx'
    exact (hr.setReg x (by rw [hr.reg x, hr.reg y])).next.mono (by simp [writes])
  | rnd x =>
    cases hx; cases hx'
    have hrand : s'.rand = s.rand := hr .rand (by simp [reads])
    exact (hr.setReg x (by rw [hrand])).next.mono (by simp [writes])
  | ldVxDt x =>
    cases hx; cases hx'
    exact (hr.setReg x (hr .dt (by simp [reads]))).next.mono (by simp [writes])
  | addReg x y =>
    cases hx; cases hx'
    have h := hr.setReg x (congrArg₂ (fun a b => (sum9 a b).setWidth 8) (hr.reg x) (hr.reg y))
    exact (h.setVf (congrArg₂ carryFlag (hr.reg x) (hr.reg y))).next.mono (by simp [writes])
  | sub x y =>
    cases hx; cases hx'
    have h := hr.setVf (congrArg₂ greaterFlag (hr.reg x) (hr.reg y))
    exact (h.setReg x (by rw [h.reg x, h.reg y])).next.mono (by simp [writes])
  | subn x y =>
    cases hx; cases hx'
    have h := hr.setVf (congrArg₂ greaterFlag (hr.reg y) (hr.reg x))
    exact (h.setReg x (by rw [h.reg x, h.reg y])).next.mono (by simp [writes])
  | shr x =>
    cases hx; cases hx'
    have h := hr.setVf (congrArg lowBitFlag (hr.reg x))
    exact (h.setReg x (by rw [h.reg x])).next.mono (by simp [writes])
  | shl x =>
    cases hx; cases hx'
    have h := hr.setVf (congrArg highBitFlag (hr.reg x))
    exact (h.setReg x (by rw [h.reg x])).next.mono (by simp [writes])
  | ldI =>
    cases hx; cases hx'
    exact (hr.setIreg rfl).next.mono (by simp [writes])
  | ldFVx x =>
    cases hx; cases hx'
    exact (hr.setIreg (by rw [hr.reg x])).next.mono (by simp [writes])
  | ldVxK =>
    cases hx; cases hx'
    exact (hr.setWait _).next.mono (by simp [writes])
  | ldDtVx x =>
    cases hx; cases hx'
    exact (hr.setDt (hr.reg x)).next.mono (by simp [writes])
  | ldStVx x =>
    cases hx; cases hx'
    exact (hr.setSt (hr.reg x)).next.mono (by simp [writes])
  | ret =>
    obtain ⟨hlt, -, rfl⟩ := of_raised_or (exec_ret_cases hx) hf
    obtain ⟨hlt', -, rfl⟩ := of_raised_or (exec_ret_cases hx') hf'
    exact ((hr.setSp (by rw [hr.sp])).jump (hr.popped hlt hlt')).mono (by simp [writes])
  | call nnn =>
    obtain ⟨hlt, rfl⟩ := of_raised_or (exec_call_cases hx) hf
    obtain ⟨hlt', rfl⟩ := of_raised_or (exec_call_cases hx') hf'
    exact ((hr.push (by rw [State.returnAddr, hr.pc, State.returnAddr]) hlt hlt').jump rfl).mono
      (by simp [writes, hlt])
  | drw x y n =>
    obtain rfl := of_raised_or (exec_drw_cases hx) hf
    obtain rfl := of_raised_or (exec_drw_cases hx') hf'
    have hd := hr.drawn (hr.reg x) (hr.reg y) (n := n) (by simp [reads]) (by simp [reads])
      fun p hp => by simp [reads, hp]
    have hflag := collisionFlag_congr (s.drawn x y n).2 (hr .drawVfInit (by simp [reads]))
      fun hk => hr.reg 15 (by simp [reads, hk])
    rw [hd]
    exact ((hr.setFb rfl).setReg 15 hflag).next.mono (by simp [writes])
  | skp x =>
    obtain ⟨hlt, rfl⟩ := of_raised_or (exec_skp_cases hx) hf
    obtain ⟨hlt', rfl⟩ := of_raised_or (exec_skp_cases hx') hf'
    exact (hr.skipIf (hr.keyOf (hr.reg x) (by simp [reads]) hlt hlt')).mono (by simp [writes])
  | sknp x =>
    obtain ⟨hlt, rfl⟩ := of_raised_or (exec_sknp_cases hx) hf
    obtain ⟨hlt', rfl⟩ := of_raised_or (exec_sknp_cases hx') hf'
    have hk := hr.keyOf (hr.reg x) (by simp [reads]) hlt hlt'
    exact (hr.skipIf (by rw [hk])).mono (by simp [writes])
  | addIVx x =>
    obtain rfl := of_raised_or (exec_addIVx_cases hx) hf
    obtain rfl := of_raised_or (exec_addIVx_cases hx') hf'
    have hi : s'.ireg = s.ireg := hr .ireg (by simp [reads])
    exact (hr.setIreg (by rw [hi, hr.reg x])).next.mono (by simp [writes])
  | ldBVx x =>
    obtain ⟨-, rfl⟩ := of_raised_or (exec_ldBVx_cases hx) hf
    obtain ⟨-, rfl⟩ := of_raised_or (exec_ldBVx_cases hx') hf'
    rw [hr.reg x]
    exact (hr.store hwf hwf' (by simp [reads]) _).next.mono (by simp [writes, decimalDigits])
  | ldMemVx x =>
    obtain ⟨-, rfl⟩ := of_raised_or (exec_ldMemVx_cases hx) hf
    obtain ⟨-, rfl⟩ := of_raised_or (exec_ldMemVx_cases hx') hf'
    rw [hr.regsUpTo x (by simp [reads])]
    exact (hr.store hwf hwf' (by simp [reads]) _).next.mono (by simp [writes, s.regsUpTo_length])
  | ldVxMem x =>
    obtain rfl := of_raised_or (exec_ldVxMem_cases hx) hf
    obtain rfl := of_raised_or (exec_ldVxMem_cases hx') hf'
    rw [hr.bytesAtI (by simp [reads]) (by simp [reads])]
    exact (hr.loadRegs x (s.bytesAtI_length _)).next.mono (by simp [writes])

/-- Settles O59: each write of an instruction takes equal values at equal places from the
two states. -/
theorem everyInstructionReadsItsRow : Obligations.EveryInstructionReadsItsRow := by
  unfold Obligations.EveryInstructionReadsItsRow
  intro i s t s' t' hwf hwf' _ _ hx hx' hf hf' hr
  exact exec_agreeOn i hwf hwf' hx hx' hf hf' hr

end Sys2Proof.Machine
end

section
/-!
Stores that the next fetch reads (O53): an in-range Fx55 stores, and what it stored reads back byte by
byte.
-/

namespace Sys2Proof.Machine

variable {s : State}

/-- An Fx55 whose last address is in range does not raise (R264). -/
theorem exec_ldMemVx_of_le {x : RegIx} (h : s.ea x.val ≤ 0xFFF) :
    exec (.ldMemVx x) s =
      .next ((s.setMem (s.mem.setList (s.ea 0) (s.regsUpTo x))).apply .next) := by
  have hin : ∀ k < (s.regsUpTo x).length, s.ea 0 + k ≤ 0xFFF := fun k hk => by
    rw [State.regsUpTo_length] at hk
    simp only [State.ea] at *
    omega
  change finish s _ = _
  rw [s.storeList_ok _ _ hin, map_ok, finish_ok]

/-- The registers stored from `I` on in a canonical memory read back there in order. -/
theorem State.get_setList_regsUpTo (hwf : s.mem.wf) {x k : RegIx} (hk : k ≤ x) :
    (s.mem.setList (s.ea 0) (s.regsUpTo x)).get (s.ea k.val) = s.reg k := by
  have hlt : k.val < (s.regsUpTo x).length := by
    rw [State.regsUpTo_length]
    exact Nat.lt_succ_of_le hk
  simp [Memory.get_setList _ _ hwf.1, State.ea, hlt,
    s.regsUpTo_getElem x k.val hlt k.isLt]

/-- Settles O53: `pc` is then `I`, so the fetch reads the bytes stored from V0 and V1. -/
theorem storedBytesAreFetched : Obligations.StoredBytesAreFetched := by
  unfold Obligations.StoredBytesAreFetched
  intro s t x hwf hx hin hexec hpc
  obtain rfl := Host.Outcome.next.inj ((exec_ldMemVx_of_le hin).symm.trans hexec)
  have h0 := State.get_setList_regsUpTo hwf (k := 0) (Fin.zero_le x)
  have h1 := State.get_setList_regsUpTo hwf (x := x) (k := 1) hx
  rw [State.wordAtPc, wordOf_toNat, hpc, State.apply_mem, State.setMem_mem]
  exact congrArg₂ (fun a b : Byte => a.toNat * 0x100 + b.toNat) h0 h1

end Sys2Proof.Machine
end

section
/-!
The encoding (O1 to O3): the five fields as numbers, the fields of a word of each format, and each
format's word of its own fields. Decoder and encoder then meet field by field.
-/

namespace Sys2Proof

/-! The fields as numbers (R101). -/

theorem fieldOp_toNat (w : Word) : (fieldOp w).toNat = w.toNat / 0x1000 := by
  have := w.isLt
  simp only [fieldOp, BitVec.extractLsb'_toNat, Nat.shiftRight_eq_div_pow]
  omega

theorem fieldX_val (w : Word) : (fieldX w).val = w.toNat / 0x100 % 16 := by
  simp [fieldX, Nat.shiftRight_eq_div_pow]

theorem fieldY_val (w : Word) : (fieldY w).val = w.toNat / 0x10 % 16 := by
  simp [fieldY, Nat.shiftRight_eq_div_pow]

theorem fieldKk_toNat (w : Word) : (fieldKk w).toNat = w.toNat % 0x100 := by
  simp [fieldKk]

theorem fieldN_toNat (w : Word) : (fieldN w).toNat = w.toNat % 16 := by
  simp [fieldN]

theorem fieldNnn_toNat (w : Word) : (fieldNnn w).toNat = w.toNat % 0x1000 := by
  simp [fieldNnn]

/-- The row count of Dxyn is its low nibble. -/
theorem ofFin_fieldRows (w : Word) : BitVec.ofFin (w := 4) (fieldRows w) = fieldN w := rfl

/-! The fields of a word of each format (R102). -/

variable (op n : BitVec 4) (nnn : Addr) (kk : Byte) (x y : RegIx)

@[simp] theorem fieldOp_wordNNN : fieldOp (wordNNN op nnn) = op := by
  apply BitVec.eq_of_toNat_eq
  rw [fieldOp_toNat, wordNNN_toNat]
  omega

@[simp] theorem fieldNnn_wordNNN : fieldNnn (wordNNN op nnn) = nnn := by
  apply BitVec.eq_of_toNat_eq
  rw [fieldNnn_toNat, wordNNN_toNat]
  omega

@[simp] theorem fieldOp_wordXKK : fieldOp (wordXKK op x kk) = op := by
  apply BitVec.eq_of_toNat_eq
  rw [fieldOp_toNat, wordXKK_toNat]
  omega

@[simp] theorem fieldX_wordXKK : fieldX (wordXKK op x kk) = x := by
  apply Fin.ext
  rw [fieldX_val, wordXKK_toNat]
  omega

@[simp] theorem fieldKk_wordXKK : fieldKk (wordXKK op x kk) = kk := by
  apply BitVec.eq_of_toNat_eq
  rw [fieldKk_toNat, wordXKK_toNat]
  omega

@[simp] theorem fieldOp_wordXYN : fieldOp (wordXYN op x y n) = op := by
  apply BitVec.eq_of_toNat_eq
  rw [fieldOp_toNat, wordXYN_toNat]
  omega

@[simp] theorem fieldX_wordXYN : fieldX (wordXYN op x y n) = x := by
  apply Fin.ext
  rw [fieldX_val, wordXYN_toNat]
  omega

@[simp] theorem fieldY_wordXYN : fieldY (wordXYN op x y n) = y := by
  apply Fin.ext
  rw [fieldY_val, wordXYN_toNat]
  omega

@[simp] theorem fieldN_wordXYN : fieldN (wordXYN op x y n) = n := by
  apply BitVec.eq_of_toNat_eq
  rw [fieldN_toNat, wordXYN_toNat]
  omega

/-! Each format puts a word's own fields back together. -/

variable {op n nnn kk x y} {w : Word} {i : Instr}

theorem wordNNN_fields (hop : fieldOp w = op) : wordNNN op (fieldNnn w) = w := by
  subst hop
  apply BitVec.eq_of_toNat_eq
  rw [wordNNN_toNat, fieldOp_toNat, fieldNnn_toNat]
  omega

theorem wordXKK_fields (hop : fieldOp w = op) (hkk : fieldKk w = kk) :
    wordXKK op (fieldX w) kk = w := by
  subst hop hkk
  apply BitVec.eq_of_toNat_eq
  rw [wordXKK_toNat, fieldOp_toNat, fieldX_val, fieldKk_toNat]
  omega

theorem wordXYN_fields (hop : fieldOp w = op) (hn : fieldN w = n) :
    wordXYN op (fieldX w) (fieldY w) n = w := by
  subst hop hn
  apply BitVec.eq_of_toNat_eq
  rw [wordXYN_toNat, fieldOp_toNat, fieldX_val, fieldY_val, fieldN_toNat]
  omega

/-! From an instruction to its word and back. -/

theorem wordNNN_inj {a b : Addr} : wordNNN op a = wordNNN op b ↔ a = b :=
  ⟨fun h => by simpa using congrArg fieldNnn h, congrArg _⟩

/-- R106: the addresses SYS leaves free are those of the words of CLS and RET. -/
theorem sysAddrFree_iff :
    sysAddrFree nnn = true ↔ wordNNN 0x0#4 nnn ≠ 0x00E0#16 ∧ wordNNN 0x0#4 nnn ≠ 0x00EE#16 := by
  have hcls : 0x00E0#16 = wordNNN 0x0#4 0x0E0#12 := rfl
  have hret : 0x00EE#16 = wordNNN 0x0#4 0x0EE#12 := rfl
  rw [hcls, hret, Ne, Ne, wordNNN_inj, wordNNN_inj]
  simp [sysAddrFree]

theorem decode0_wordNNN (h : sysAddrFree nnn = true) :
    decode0 (wordNNN 0x0#4 nnn) = .ok (.sys nnn) := by
  obtain ⟨hcls, hret⟩ := sysAddrFree_iff.mp h
  rw [decode0, if_neg hcls, if_neg hret, fieldNnn_wordNNN]

/-- R105, R113: the fixed bits of a row lead the decoder to that row, which reads the operands back. -/
theorem decode_encode (h : i.wellFormed = true) : decode (encode i) = .ok i := by
  cases i with
  | cls | ret => rfl
  | sys nnn =>
    simp only [encode, decode, fieldOp_wordNNN]
    exact decode0_wordNNN h
  | jp | call | ldI | jpV0 => simp [encode, decode]
  | seImm | sneImm | ldImm | addImm | rnd => simp [encode, decode]
  | seReg => simp [encode, decode, decode5]
  | ldReg | orReg | andReg | xorReg | addReg | sub | shr | subn | shl =>
    simp [encode, decode, decode8]
  | sneReg => simp [encode, decode, decode9]
  | drw => simp [encode, decode, fieldRows]
  | skp | sknp => simp [encode, decode, decodeE]
  | ldVxDt | ldVxK | ldDtVx | ldStVx | addIVx | ldFVx | ldBVx | ldMemVx | ldVxMem =>
    simp [encode, decode, decodeF]

/-! From an accepted word to its instruction and back, family by family. -/

theorem encode_of_decode0 (hop : fieldOp w = 0x0#4) (h : decode0 w = .ok i) :
    encode i = w ∧ i.wellFormed = true := by
  have hw := wordNNN_fields hop
  simp only [decode0] at h
  split at h
  case isTrue hcls =>
    cases h
    exact ⟨hcls.symm, rfl⟩
  case isFalse hcls =>
    split at h
    case isTrue hret =>
      cases h
      exact ⟨hret.symm, rfl⟩
    case isFalse hret =>
      cases h
      exact ⟨hw, sysAddrFree_iff.mpr ⟨hw.symm ▸ hcls, hw.symm ▸ hret⟩⟩

theorem encode_of_decode5 (hop : fieldOp w = 0x5#4) (h : decode5 w = .ok i) :
    encode i = w ∧ i.wellFormed = true := by
  simp only [decode5] at h
  split at h <;> cases h
  exact ⟨wordXYN_fields hop ‹_›, rfl⟩

theorem encode_of_decode8 (hop : fieldOp w = 0x8#4) (h : decode8 w = .ok i) :
    encode i = w ∧ i.wellFormed = true := by
  simp only [decode8] at h
  split at h <;> cases h <;> exact ⟨wordXYN_fields hop ‹_›, rfl⟩

theorem encode_of_decode9 (hop : fieldOp w = 0x9#4) (h : decode9 w = .ok i) :
    encode i = w ∧ i.wellFormed = true := by
  simp only [decode9] at h
  split at h <;> cases h
  exact ⟨wordXYN_fields hop ‹_›, rfl⟩

theorem encode_of_decodeE (hop : fieldOp w = 0xE#4) (h : decodeE w = .ok i) :
    encode i = w ∧ i.wellFormed = true := by
  simp only [decodeE] at h
  split at h <;> cases h <;> exact ⟨wordXKK_fields hop ‹_›, rfl⟩

theorem encode_of_decodeF (hop : fieldOp w = 0xF#4) (h : decodeF w = .ok i) :
    encode i = w ∧ i.wellFormed = true := by
  simp only [decodeF] at h
  split at h <;> cases h <;> exact ⟨wordXKK_fields hop ‹_›, rfl⟩

/-- R105: an accepted word is its fields in the format of the row it selected. The case `h_1` is
the family of the top nibble 0, `h_16` that of F. -/
theorem encode_of_decode (h : decode w = .ok i) : encode i = w ∧ i.wellFormed = true := by
  simp only [decode] at h
  split at h <;> rename_i hop
  case h_1 => exact encode_of_decode0 hop h
  case h_6 => exact encode_of_decode5 hop h
  case h_9 => exact encode_of_decode8 hop h
  case h_10 => exact encode_of_decode9 hop h
  case h_15 => exact encode_of_decodeE hop h
  case h_16 => exact encode_of_decodeF hop h
  case h_14 =>
    cases h
    exact ⟨wordXYN_fields hop (ofFin_fieldRows w).symm, rfl⟩
  case h_2 | h_3 | h_11 | h_12 =>
    cases h
    exact ⟨wordNNN_fields hop, rfl⟩
  case h_4 | h_5 | h_7 | h_8 | h_13 =>
    cases h
    exact ⟨wordXKK_fields hop rfl, rfl⟩
  case h_17 => cases h

/-- Settles O1: the decoder selects each row by the bits its format fixes and reads the operands
back from their fields. -/
theorem decodeOfEncodeIsIdentity : Obligations.DecodeOfEncodeIsIdentity := by
  unfold Obligations.DecodeOfEncodeIsIdentity
  exact fun i => decode_encode

/-- Settles O2: opcode, selector and operand fields of an accepted word are all of its bits. -/
theorem encodeOfDecodeIsIdentity : Obligations.EncodeOfDecodeIsIdentity := by
  unfold Obligations.EncodeOfDecodeIsIdentity
  exact fun w i => encode_of_decode

/-- Settles O3: each field is a shift and a cut of the word, a division and a remainder. -/
theorem fieldsOfEveryWord : Obligations.FieldsOfEveryWord := by
  unfold Obligations.FieldsOfEveryWord
  exact fun w => ⟨fieldOp_toNat w, fieldX_val w, fieldY_val w, fieldKk_toNat w, fieldN_toNat w,
    fieldN_toNat w, fieldNnn_toNat w⟩

end Sys2Proof
end

section
/-!
A whole step as the instruction it runs (O6), and the random byte of such a step (O45).
-/

namespace Sys2Proof.Machine

variable {ps qs : List Piece} {s t : State} {i : Instr}

theorem ChangesOnly.mono (h : ChangesOnly ps s t) (hs : ps ⊆ qs) : ChangesOnly qs s t :=
  fun p hp => h p fun hm => hp (hs hm)

/-- The fetch reads the word at `pc` (R148), and the decoded instruction runs (R149, R150). -/
theorem State.runInstr_of_decode (hpc : s.pc.toNat ≤ 0xFFE) (hd : decode s.wordAtPc = .ok i) :
    s.runInstr = exec i s := by
  rcases s.runInstr_cases with ⟨hout, -⟩ | ⟨-, w, rfl, ⟨e, he, -⟩ | ⟨j, hj, hrun⟩⟩
  · omega
  · exact nomatch hd.symm.trans he
  · cases hd.symm.trans hj
    exact hrun

/-- No phase before the fetch moves `pc` or writes memory. -/
@[simp] theorem State.wordAtPc_latch_tick (s : State) : s.latch.tick.wordAtPc = s.wordAtPc := by
  simp [State.wordAtPc]

theorem State.AboutToRun.step_eq (h : s.AboutToRun i) : step s = exec i s.latch.tick := by
  rcases step_cases s with ⟨hf, -⟩ | ⟨-, x, hw, -⟩ | ⟨-, -, hrun⟩
  · exact absurd h.unfaulted hf
  · exact nomatch h.running.symm.trans hw
  · rw [hrun]
    exact State.runInstr_of_decode (by simpa using h.fetchable) (by simpa using h.decodes)

/-- Settles O6: of the three things a step can do, a fault and a wait are ruled out; the tick then
leaves the word at `pc` to be fetched and decoded. -/
theorem stepRunsTheDecodedInstruction : Obligations.StepRunsTheDecodedInstruction := by
  unfold Obligations.StepRunsTheDecodedInstruction
  exact fun s i h => h.step_eq

theorem exec_rnd (x : RegIx) (kk : Byte) (s : State) :
    exec (.rnd x kk) s = .next ((s.setReg x (s.rand &&& kk)).apply .next) := rfl

theorem State.nextInput_of_cons {inp : StepInput} {rest : List StepInput}
    (h : s.inputs = inp :: rest) : s.nextInput = inp := by
  simp [State.nextInput, h]

/-- Settles O45: the handler masks the latched byte, and in a whole step that byte comes from the
oldest given input, which the latch phase uses up. -/
theorem randomByteMasked : Obligations.RandomByteMasked := by
  unfold Obligations.RandomByteMasked
  refine ⟨fun s x kk => ?_, fun s x kk r k rest h hin => ?_⟩
  · have hframe := ((s.setReg_changesOnly x (s.rand &&& kk)).apply .next).mono
      (qs := [.reg x, .pc]) (by simp)
    have hx : ((s.setReg x (s.rand &&& kk)).apply .next).reg x = s.rand &&& kk := by simp
    refine ⟨_, exec_rnd x kk s, hx, fun h0 => ?_, fun hff => ?_, rfl, hframe⟩
    · rw [hx, h0, BitVec.and_zero]
    · rw [hx, hff]
      exact BitVec.and_allOnes
  · refine ⟨_, h.step_eq.trans (exec_rnd x kk _), ?_, ?_⟩
    · simp [State.nextInput_of_cons hin]
    · simp [hin]

end Sys2Proof.Machine
end

section
/-!
The display family (O27 to O30): a draw inside the address space, its pixels and its collision in the
terms of the statements. What two draws (O29) and a draw of no row (O30) do follows from the effect of
one draw (O28).
-/

namespace Sys2Proof.Machine

variable {s t : State} {x y : RegIx} {n : Rows}

/-- Settles O27: the handler's answer is its frame over a blank screen. -/
theorem clearScreen : Obligations.ClearScreen := by
  unfold Obligations.ClearScreen
  intro s
  have hframe : ChangesOnly [.fb, .dirty, .pc] s ((s.setFb Framebuffer.blank).apply .next) :=
    ((s.setFb_changesOnly _).apply .next).mono (by simp)
  exact ⟨_, rfl, by simp, rfl, rfl, hframe⟩

/-- A Dxyn whose row bytes are in range does not raise (R171). -/
theorem exec_drw_of_le (h : ∀ k < n.val, s.ea k ≤ 0xFFF) :
    exec (.drw x y n) s = .next (((s.setFb (s.drawn x y n).1).setReg 15
      (collisionFlag s.cfg (s.reg 15) (s.drawn x y n).2)).apply .next) := by
  change finish s _ = _
  rw [s.loadList_ok n.val (s.ea 0) h, map_ok, finish_ok]
  rfl

theorem State.bytesAtI_getD {m k : Nat} (h : k < m) : (s.bytesAtI m).getD k 0 = s.mem.get (s.ea k) := by
  simp [State.bytesAtI, h]

theorem wrapX_eq_iff (b : Byte) (col : Nat) (px : Fin 64) :
    wrapX b col = px ↔ px.val = (b.toNat + col) % 64 := by
  simp [wrapX, Fin.ext_iff, eq_comm]

theorem wrapY_eq_iff (b : Byte) (row : Nat) (py : Fin 32) :
    wrapY b row = py ↔ py.val = (b.toNat + row) % 32 := by
  simp [wrapY, Fin.ext_iff, eq_comm]

/-- The pixels the loops of R171 cover with the bytes at `I` are those of R172. -/
theorem State.covered_bytesAtI_iff (s : State) (x y : RegIx) (n : Rows) (px : Fin 64) (py : Fin 32) :
    Covered (s.reg x) (s.reg y) 0 (s.bytesAtI n.val) px py ↔ s.InSprite x y n px py := by
  simp only [Covered, State.InSprite, State.bytesAtI_length, wrapX_eq_iff, wrapY_eq_iff, Nat.zero_add,
    spriteBit]
  constructor
  · rintro ⟨row, hrow, col, hcol, hx, hy, hbit⟩
    exact ⟨row, col, hrow, hcol, hx, hy, State.bytesAtI_getD hrow ▸ hbit⟩
  · rintro ⟨row, col, hrow, hcol, hx, hy, hbit⟩
    exact ⟨row, hrow, col, hcol, hx, hy, (State.bytesAtI_getD hrow).symm ▸ hbit⟩

open Classical in
/-- R172, R173: the pixels a draw inverts and its collision. -/
theorem State.drawn_spec (s : State) (x y : RegIx) (n : Rows) :
    (∀ px py, (s.drawn x y n).1.at px py = (s.fb.at px py ^^ decide (s.InSprite x y n px py))) ∧
    ((s.drawn x y n).2 = true ↔ ∃ px py, s.InSprite x y n px py ∧ s.fb.at px py = true) := by
  have hlen : 0 + (s.bytesAtI n.val).length ≤ 16 := by simp [n.isLt.le]
  simpa [State.drawn, State.covered_bytesAtI_iff] using
    drawRows_spec (s.reg x) (s.reg y) (s.bytesAtI n.val) 0 hlen s.fb false

/-- Settles O28: with its bytes in range a draw answers the state of its two loops. -/
theorem drawSprite : Obligations.DrawSprite := by
  unfold Obligations.DrawSprite
  intro s x y n hin
  obtain ⟨hpixel, hcollision⟩ := s.drawn_spec x y n
  have hframe := (((s.setFb_changesOnly (s.drawn x y n).1).trans (State.setReg_changesOnly _ 15
    (collisionFlag s.cfg (s.reg 15) (s.drawn x y n).2))).apply .next).mono
    (qs := [.reg 15, .fb, .dirty, .pc]) (by simp)
  refine ⟨_, exec_drw_of_le hin, fun px py => ⟨fun hp => ?_, fun hp => ?_⟩, fun hhit => ?_,
    fun hmiss => ?_, by simp, by simp, hframe⟩
  · simp [hpixel, hp]
  · simp [hpixel, hp]
  · have hc := hcollision.mpr hhit
    cases hk : s.cfg.drawVfInit <;> simp [collisionFlag, flagByte, hc, hk]
  · have hc : (s.drawn x y n).2 = false := Bool.eq_false_iff.mpr fun hc => by
      obtain ⟨px, py, hp, hset⟩ := hcollision.mp hc
      simp [hmiss px py hp] at hset
    cases hk : s.cfg.drawVfInit <;> simp [collisionFlag, flagByte, hc, hk]

/-- A sprite is the same in two states with the same coordinates, `I` and memory. -/
theorem State.inSprite_congr (hx : t.reg x = s.reg x) (hy : t.reg y = s.reg y)
    (hi : t.ireg = s.ireg) (hm : ∀ a, t.mem.get a = s.mem.get a) (px : Fin 64) (py : Fin 32) :
    t.InSprite x y n px py ↔ s.InSprite x y n px py := by
  simp only [State.InSprite, State.ea, hx, hy, hi, hm]

/-- Settles O29: the first draw leaves the sprite as it was, so the second inverts the same pixels
again, and it collides where the first one set a pixel. -/
theorem drawTwiceRestores : Obligations.DrawTwiceRestores := by
  unfold Obligations.DrawTwiceRestores
  intro s t u x y n hx hy hin ht hu
  obtain ⟨_, ht', hpixel, -, -, -, -, hframe⟩ := drawSprite s x y n hin
  cases ht.symm.trans ht'
  have hi : t.ireg = s.ireg := hframe .ireg (by simp)
  have hsame := State.inSprite_congr (n := n) (hframe (.reg x) (by simpa using hx))
    (hframe (.reg y) (by simpa using hy)) hi fun a => hframe (.mem a) (by simp)
  obtain ⟨_, hu', hpixel', hhit, hmiss, -⟩ := drawSprite t x y n (by simpa [State.ea, hi] using hin)
  cases hu.symm.trans hu'
  refine ⟨Framebuffer.ext_at fun px py => ?_, fun hclear => ?_⟩
  · by_cases hp : s.InSprite x y n px py
    · rw [(hpixel' px py).1 ((hsame px py).mpr hp), (hpixel px py).1 hp, Bool.not_not]
    · rw [(hpixel' px py).2 (mt (hsame px py).mp hp), (hpixel px py).2 hp]
  · have hkept : t.cfg.drawVfInit = s.cfg.drawVfInit := hframe .drawVfInit (by simp)
    simp only [hkept, hclear] at hhit hmiss
    by_cases hset : ∃ px py, s.InSprite x y n px py ∧ s.fb.at px py = false
    · obtain ⟨px, py, hp, hfb⟩ := hset
      have hone := hhit ⟨px, py, (hsame px py).mpr hp, by simp [(hpixel px py).1 hp, hfb]⟩
      exact iff_of_true hone ⟨px, py, hp, hfb⟩
    · have hzero := hmiss fun px py hp => by
        have hp' := (hsame px py).mp hp
        simpa [(hpixel px py).1 hp'] using fun hfb => hset ⟨px, py, hp', hfb⟩
      exact iff_of_false (by simp [hzero]) hset

theorem State.not_inSprite_zero (s : State) (x y : RegIx) (px : Fin 64) (py : Fin 32) :
    ¬s.InSprite x y 0 px py := by
  rintro ⟨row, -, hrow, -⟩
  exact absurd hrow (Nat.not_lt_zero row)

/-- Settles O30: a sprite of no row has no byte to read and no pixel, so no draw of it collides and
the framebuffer is kept. -/
theorem drawNoRows : Obligations.DrawNoRows := by
  unfold Obligations.DrawNoRows
  intro s x y
  have hnone := s.not_inSprite_zero x y
  obtain ⟨t, ht, hpixel, -, hmiss, hdirty, hpc, hframe⟩ :=
    drawSprite s x y 0 fun k hk => absurd hk (Nat.not_lt_zero k)
  have hfb : t.fb = s.fb := Framebuffer.ext_at fun px py => (hpixel px py).2 (hnone px py)
  refine ⟨t, ht, hmiss fun px py hp => absurd hp (hnone px py), hdirty, hpc, fun p hp => ?_⟩
  by_cases hp' : p = .fb
  · subst hp'
    exact hfb
  · exact hframe p (by simpa [hp'] using hp)

end Sys2Proof.Machine
end

section
/-!
The control-flow family, the instructions that give a PC directive and write nothing else: 0nnn (O31),
1nnn (O32) and the skips on registers and immediates (O34).
-/

namespace Sys2Proof.Machine

/-- A 12-bit address keeps its number as a word (R194). -/
@[simp] theorem zextAddr_toNat (nnn : Addr) : (zextAddr nnn).toNat = nnn.toNat :=
  BitVec.toNat_setWidth_of_le (by decide)

/-- A skip on equality of two bytes (R196, R198). -/
theorem State.apply_skipIf_beq_pc (s : State) (a b : Byte) :
    (s.apply (.skipIf (a == b))).pc = if a = b then s.pc + 4 else s.pc + 2 := by
  simp only [State.apply_skipIf_pc, beq_iff_eq]

/-- A skip on difference of two bytes (R197, R199). -/
theorem State.apply_skipIf_bne_pc (s : State) (a b : Byte) :
    (s.apply (.skipIf (a != b))).pc = if a = b then s.pc + 2 else s.pc + 4 := by
  simp only [State.apply_skipIf_pc, bne_iff_ne, ite_not]

/-- Settles O31: the handler answers NEXT and writes nothing. -/
theorem legacyCallIsNoOp : Obligations.LegacyCallIsNoOp := by
  unfold Obligations.LegacyCallIsNoOp
  intro s nnn
  exact ⟨_, rfl, s.apply_next_pc, s.apply_changesOnly .next⟩

/-- Settles O32: the handler jumps to the address, which as a word is the same number. -/
theorem jumpSetsPc : Obligations.JumpSetsPc := by
  unfold Obligations.JumpSetsPc
  intro s nnn
  exact ⟨_, rfl, zextAddr_toNat nnn, s.apply_changesOnly (.jump (zextAddr nnn))⟩

/-- Settles O34: each handler answers a conditional skip, on equality or on difference. -/
theorem skipsOnRegisters : Obligations.SkipsOnRegisters := by
  unfold Obligations.SkipsOnRegisters
  refine ⟨fun s x kk => ?seImm, fun s x kk => ?sneImm, fun s x y => ?seReg, fun s x y => ?sneReg⟩
  case seImm => exact ⟨_, rfl, s.apply_skipIf_beq_pc (s.reg x) kk, s.apply_changesOnly _⟩
  case sneImm => exact ⟨_, rfl, s.apply_skipIf_bne_pc (s.reg x) kk, s.apply_changesOnly _⟩
  case seReg => exact ⟨_, rfl, s.apply_skipIf_beq_pc (s.reg x) (s.reg y), s.apply_changesOnly _⟩
  case sneReg => exact ⟨_, rfl, s.apply_skipIf_bne_pc (s.reg x) (s.reg y), s.apply_changesOnly _⟩

end Sys2Proof.Machine
end

section
/-!
The arithmetic and logic family, the instructions that write one register from the state before them
and no flag: 6xkk and 7xkk (O38), 8xy0 to 8xy3 (O39).
-/

namespace Sys2Proof.Machine

variable {s : State} {x : RegIx} {b : Byte} {i : Instr}

/-- What an instruction does whose effect is one register write and NEXT. -/
theorem exec_setReg_next (h : exec i s = .next ((s.setReg x b).apply .next)) :
    ∃ t, exec i s = .next t ∧ t.reg x = b ∧ t.pc = s.pc + 2#16 ∧ ChangesOnly [.reg x, .pc] s t := by
  have hreg : ((s.setReg x b).apply .next).reg x = b := by simp
  have hpc : ((s.setReg x b).apply .next).pc = s.pc + 2 := by simp
  have hframe := ((s.setReg_changesOnly x b).apply .next).mono (qs := [.reg x, .pc]) (by simp)
  exact ⟨_, h, hreg, hpc, hframe⟩

theorem exec_addImm (x : RegIx) (kk : Byte) (s : State) :
    exec (.addImm x kk) s = .next ((s.setReg x (s.reg x + kk)).apply .next) := rfl

/-- Settles O38: each handler writes Vx once; the sum of two bytes wraps modulo 256. -/
theorem immediateOperations : Obligations.ImmediateOperations := by
  unfold Obligations.ImmediateOperations
  refine fun s x kk => ⟨?ldImm, ?addImm⟩
  case ldImm => exact exec_setReg_next rfl
  case addImm =>
    obtain ⟨t, ht, hreg, hpc, hframe⟩ := exec_setReg_next (exec_addImm x kk s)
    exact ⟨t, ht, hreg ▸ BitVec.toNat_add (s.reg x) kk, hpc, hframe⟩

/-- Settles O39: each handler writes Vx once, with the value its row names. -/
theorem copyAndBitwise : Obligations.CopyAndBitwise := by
  unfold Obligations.CopyAndBitwise
  refine fun s x y => ⟨?ldReg, ?orReg, ?andReg, ?xorReg⟩
  case ldReg => exact exec_setReg_next rfl
  case orReg => exact exec_setReg_next rfl
  case andReg => exact exec_setReg_next rfl
  case xorReg => exact exec_setReg_next rfl

end Sys2Proof.Machine
end

section
/-!
The index register and memory family: Annn (O46), and the accesses through `I` of Fx33 (O49), Fx55
(O50) and Fx65 (O51), each inside the address space and at its first address outside.
-/

namespace Sys2Proof.Machine

variable {s : State} {x : RegIx} {k m n : Nat} {bs : List Byte}

/-- Settles O46: the handler writes `I`, as a word the same number as the address. -/
theorem loadIndex : Obligations.LoadIndex := by
  unfold Obligations.LoadIndex
  intro s nnn
  have hframe := ((s.setIreg_changesOnly (zextAddr nnn)).apply .next).mono
    (qs := [.ireg, .pc]) (by simp)
  exact ⟨_, rfl, zextAddr_toNat nnn, rfl, hframe⟩

/-- Where the last byte of an access through `I` is in range, every byte of it is. -/
theorem State.ea_le_of_last (h : s.ea m ≤ 0xFFF) : ∀ k < m + 1, s.ea k ≤ 0xFFF := fun k hk => by
  simp only [State.ea] at *
  omega

/-- A handler that reads through `I` raises at its first address out of range (R322). -/
theorem finish_loadList_of_gt {f : List Byte → State} (hk : k < n) (hout : 0xFFF < s.ea k)
    (hin : ∀ j < k, s.ea j ≤ 0xFFF) :
    finish s ((s.loadList (s.ea 0) n).map f) =
      .next (raise (.memoryOutOfRange s.pc (s.ea k)) s) := by
  rw [s.loadList_error n (s.ea 0) k hk hout hin, map_error, finish_fatal]
  rfl

/-- A handler that stores through `I` raises at its first address out of range (R322). -/
theorem finish_storeList_of_gt {f : State → State} (hk : k < bs.length) (hout : 0xFFF < s.ea k)
    (hin : ∀ j < k, s.ea j ≤ 0xFFF) :
    finish s ((s.storeList (s.ea 0) bs).map f) =
      .next (raise (.memoryOutOfRange s.pc (s.ea k)) s) := by
  rw [s.storeList_error bs (s.ea 0) k hk hout hin, map_error, finish_fatal]
  rfl

/-- Bytes stored from `I` on in a canonical memory read back there in order. -/
theorem State.get_setList_ea (hwf : s.mem.wf) (hk : k < bs.length) :
    (s.mem.setList (s.ea 0) bs).get (s.ea k) = bs[k] := by
  simp [Memory.get_setList bs s.mem hwf.1, State.ea, hk]

@[simp] theorem decimalDigits_length (b : Byte) : (decimalDigits b).length = 3 := rfl

/-- The digits as numbers: each is below 256, so the byte that holds it keeps it. -/
theorem decimalDigits_toNat (b : Byte) :
    (decimalDigits b)[0].toNat = b.toNat / 100 ∧ (decimalDigits b)[1].toNat = b.toNat / 10 % 10 ∧
    (decimalDigits b)[2].toNat = b.toNat % 10 := by
  have hb := b.isLt
  exact ⟨Nat.mod_eq_of_lt (by omega), Nat.mod_eq_of_lt (by omega), Nat.mod_eq_of_lt (by omega)⟩

/-- An Fx33 whose last address is in range does not raise (R263). -/
theorem exec_ldBVx_of_le (h : s.ea 2 ≤ 0xFFF) :
    exec (.ldBVx x) s =
      .next ((s.setMem (s.mem.setList (s.ea 0) (decimalDigits (s.reg x)))).apply .next) := by
  change finish s _ = _
  rw [s.storeList_ok (decimalDigits (s.reg x)) (s.ea 0) (State.ea_le_of_last h), map_ok, finish_ok]

/-- Settles O49: the three bytes stored at `I` are the digits of Vx; out of range the store raises. -/
theorem storeDecimalDigits : Obligations.StoreDecimalDigits := by
  unfold Obligations.StoreDecimalDigits
  refine fun s x hwf => ⟨fun hin => ?_, fun k hk hout hbelow => ?_⟩
  · obtain ⟨hhundreds, htens, hones⟩ := decimalDigits_toNat (s.reg x)
    have hget : ∀ {k : Nat} (hk : k < 3),
        ((s.mem.setList (s.ea 0) (decimalDigits (s.reg x))).get (s.ea k)).toNat =
          (decimalDigits (s.reg x))[k].toNat := fun hk =>
      congrArg BitVec.toNat (State.get_setList_ea hwf hk)
    have hframe := ((State.setMem_setList_changesOnly hwf (decimalDigits (s.reg x))).apply .next).mono
      (qs := [.mem (s.ea 0), .mem (s.ea 1), .mem (s.ea 2), .pc])
      (by simp [State.memPieces, List.range_succ])
    exact ⟨_, exec_ldBVx_of_le hin, (hget (by decide)).trans hhundreds,
      (hget (by decide)).trans htens, (hget (by decide)).trans hones, rfl, hframe⟩
  · exact ⟨_, finish_storeList_of_gt hk hout hbelow, raise_fault _ s⟩

/-- Settles O50: the registers stored from `I` on read back there; out of range the store raises. -/
theorem storeRegisters : Obligations.StoreRegisters := by
  unfold Obligations.StoreRegisters
  refine fun s x hwf => ⟨fun hin => ?_, fun k hk hout hbelow => ?_⟩
  · have hframe := (State.setMem_setList_changesOnly hwf (s.regsUpTo x)).apply .next
    rw [State.regsUpTo_length] at hframe
    exact ⟨_, exec_ldMemVx_of_le hin, fun k hk => State.get_setList_regsUpTo hwf hk, rfl, hframe⟩
  · have hlen : k < (s.regsUpTo x).length := by
      rw [State.regsUpTo_length]
      exact Nat.lt_succ_of_le hk
    exact ⟨_, finish_storeList_of_gt hlen hout hbelow, raise_fault _ s⟩

/-- An Fx65 whose last address is in range does not raise (R265). -/
theorem exec_ldVxMem_of_le (h : s.ea x.val ≤ 0xFFF) :
    exec (.ldVxMem x) s = .next ((s.loadRegs (s.bytesAtI (x.val + 1))).apply .next) := by
  change finish s _ = _
  rw [s.loadList_ok (x.val + 1) (s.ea 0) (State.ea_le_of_last h), map_ok, finish_ok]
  rfl

/-- A register the bytes at `I` reach takes its byte. -/
theorem State.reg_loadRegs_bytesAtI {k : RegIx} (hk : k.val < n) :
    (s.loadRegs (s.bytesAtI n)).reg k = s.mem.get (s.ea k.val) := by
  simp [State.bytesAtI, hk]

/-- Settles O51: V0..Vx take the bytes at `I` and no other register is written; out of range the
read raises. -/
theorem loadRegisters : Obligations.LoadRegisters := by
  unfold Obligations.LoadRegisters
  refine fun s x => ⟨fun hin => ?_, fun k hk hout hbelow => ?_⟩
  · have hregs : ∀ k : RegIx, k ≤ x →
        (s.loadRegs (s.bytesAtI (x.val + 1))).reg k = s.mem.get (s.ea k.val) := fun k hk =>
      State.reg_loadRegs_bytesAtI (Nat.lt_succ_of_le hk)
    have hframe := (s.loadRegs_changesOnly x _ (s.bytesAtI_length (x.val + 1))).apply .next
    exact ⟨_, exec_ldVxMem_of_le hin, hregs, rfl, hframe⟩
  · exact ⟨_, finish_loadList_of_gt (Nat.lt_succ_of_le hk) hout hbelow, raise_fault _ s⟩

end Sys2Proof.Machine
end

section
/-!
The key and timer family: a step of a core that waits for a key (O12), the phases 1 and 2 and nothing
after them, and the delay timer's two instructions (O55).
-/

namespace Sys2Proof.Machine

variable {s : State} {x : RegIx} {keys : Keys} {k : RegIx}

/-- The lowest pressed key of a snapshot, found by the search of R146. -/
theorem lowestKey_eq_some (hk : keys.get k = true) (hlow : ∀ j < k, keys.get j = false) :
    lowestKey keys = some k := by
  cases hfound : lowestKey keys with
  | none => simp [lowestKey_none hfound k] at hk
  | some i =>
    obtain ⟨hi, hbelow⟩ := lowestKey_some hfound
    rcases lt_trichotomy i k with hlt | rfl | hgt
    · simp [hlow i hlt] at hi
    · rfl
    · simp [hbelow k hgt] at hk

theorem lowestKey_eq_none (h : ∀ j, keys.get j = false) : lowestKey keys = none := by
  simp [lowestKey, h]

theorem State.resolveWait_of_some (h : lowestKey s.keys = some k) :
    s.resolveWait x = (s.setReg x (BitVec.ofNat 8 k.val)).setWait .running := by
  simp [State.resolveWait, h]

theorem State.resolveWait_of_none (h : lowestKey s.keys = none) : s.resolveWait x = s := by
  simp [State.resolveWait, h]

/-- Phase 2 writes the target register and `wait` at most (R146). -/
theorem State.resolveWait_changesOnly (s : State) (x : RegIx) :
    ChangesOnly [.wait, .reg x] s (s.resolveWait x) := by
  rcases s.resolveWait_cases x with ⟨k, -, h⟩ | ⟨-, h⟩
  · rw [h]
    exact (s.setReg_changesOnly x _).trans (State.setWait_changesOnly _ _)
  · rw [h]
    exact (ChangesOnly.refl s).mono (List.nil_subset _)

/-- Phase 1 writes the snapshot, `dirty`, `cyc` and the input bookkeeping (R145). -/
theorem State.latch_changesOnly (s : State) :
    ChangesOnly ([.rand, .dirty, .cyc, .inputs, .stepNo] ++ keyPieces) s s.latch := by
  intro p hp
  cases p with
  | rand | dirty | cyc | inputs | stepNo | key => simp at hp
  | _ => rfl

/-- A waiting step counts toward the timer cadence only under TIMER_COUNT_BLOCKED (R145). -/
theorem State.counted_of_waiting (hw : s.wait = .awaitingKey x) :
    s.counted = s.cfg.timerCountBlocked := by
  simp [State.counted, hw]

theorem step_of_waiting (hf : s.fault = none) (hw : s.wait = .awaitingKey x) :
    step s = .next (s.latch.resolveWait x) := by
  simp [step, State.cycle, hf, hw]

/-- Settles O12: phase 2 keeps what phase 1 latched, apart from Vx and `wait`, which it writes only
when the snapshot has a lowest pressed key. -/
theorem keyWaitStep : Obligations.KeyWaitStep := by
  unfold Obligations.KeyWaitStep
  intro s x hf hw
  have hkeep := s.latch.resolveWait_changesOnly x
  have hcyc : (s.latch.resolveWait x).cyc = s.latch.cyc := hkeep .cyc (by simp)
  have hcount := State.counted_of_waiting hw
  refine ⟨_, step_of_waiting hf hw, s.latch.resolveWait_keys x, hkeep .rand (by simp),
    hkeep .inputs (by simp), hkeep .stepNo (by simp), s.latch.resolveWait_dirty x,
    fun hblocked => ?counted, fun hblocked => ?uncounted, fun k hk hlow => ?pressed,
    fun hnone => ?unpressed⟩
  case counted =>
    rw [hcyc, s.latch_cyc, if_pos (hcount.trans hblocked)]
    exact Fin.val_add s.cyc 1
  case uncounted => rw [hcyc, s.latch_cyc, if_neg (by simp [hcount, hblocked])]
  case pressed =>
    have hframe := (s.latch_changesOnly.trans hkeep).mono
      (qs := [.reg x, .wait, .rand, .dirty, .cyc, .inputs, .stepNo] ++ keyPieces) (by simp)
    have hres := State.resolveWait_of_some (s := s.latch) (x := x) (lowestKey_eq_some hk hlow)
    refine ⟨?_, by rw [hres]; rfl, hframe⟩
    rw [hres, State.reg_setWait, State.reg_setReg_self]
    exact Nat.mod_eq_of_lt (k.isLt.trans (by decide))
  case unpressed =>
    rw [State.resolveWait_of_none (s := s.latch) (lowestKey_eq_none hnone)]
    exact ⟨hw, s.latch_changesOnly⟩

theorem exec_ldVxDt (x : RegIx) (s : State) :
    exec (.ldVxDt x) s = .next ((s.setReg x s.dt).apply .next) := rfl

theorem exec_ldDtVx (x : RegIx) (s : State) :
    exec (.ldDtVx x) s = .next ((s.setDt (s.reg x)).apply .next) := rfl

/-- A timer at 0 has nothing to count down (R338). -/
theorem State.tick_dt_of_zero (h : s.dt = 0) : s.tick.dt = 0 := by
  rw [s.tick_dt, h]
  split <;> rfl

/-- Settles O55: each handler copies one byte between DT and Vx, and in a whole step it runs on the
state the tick has left, whose registers are those before the step. -/
theorem delayTimerAccess : Obligations.DelayTimerAccess := by
  unfold Obligations.DelayTimerAccess
  refine fun s x => ⟨exec_setReg_next (exec_ldVxDt x s), ?write, fun h => ?readStep,
    fun h => ?writeStep, State.tick_dt_of_zero⟩
  case write =>
    have hframe := ((s.setDt_changesOnly (s.reg x)).apply .next).mono (qs := [.dt, .pc]) (by simp)
    exact ⟨_, exec_ldDtVx x s, rfl, rfl, hframe⟩
  case readStep =>
    obtain ⟨t, ht, hreg, -, hframe⟩ := exec_setReg_next (exec_ldVxDt x s.latch.tick)
    have hdt : t.dt = s.latch.tick.dt := hframe .dt (by simp)
    exact ⟨t, h.step_eq.trans ht, hdt, hreg.trans hdt.symm⟩
  case writeStep =>
    exact ⟨_, h.step_eq.trans (exec_ldDtVx x _), s.latch.reg_tick x⟩

end Sys2Proof.Machine
end

section
/-!
The timers (O8, O19): what the tick does to them, and the schedule `cyc` and DT keep over steps of a
running core that runs no Fx15.
-/

namespace Sys2Proof.Machine

variable {s t : State} {i : Instr} {p : Piece}

/-- A timer counts down by 1 and saturates at 0 (R338). -/
theorem countDown_toNat (b : Byte) : (countDown b).toNat = b.toNat - 1 := by
  unfold countDown
  split <;> bv_omega

theorem State.tick_dt_toNat (s : State) :
    s.tick.dt.toNat = if s.cyc.val = 0 then s.dt.toNat - 1 else s.dt.toNat := by
  simp [← Fin.val_eq_zero_iff, apply_ite BitVec.toNat, countDown_toNat]

/-- Phase 3 writes the two timers at most (R338). -/
theorem State.tick_changesOnly (s : State) : ChangesOnly [.dt, .st] s s.tick := by
  intro p hp
  cases p with
  | dt | st => simp at hp
  | _ => simp [Agree]

/-- Settles O8: the phase of `cyc` decides whether both timers count down or neither does. -/
theorem timerTickAction : Obligations.TimerTickAction := by
  unfold Obligations.TimerTickAction
  refine fun s => ⟨fun hcyc => ?due, fun hcyc => ?notDue, s.tick_changesOnly⟩
  case due => simp [hcyc, countDown_toNat]
  case notDue => simp [hcyc]

/-- In the rows of R51 no instruction has `cyc`, and Fx15 alone has DT. -/
theorem cyc_dt_notMem_writes (hi : ∀ x, i ≠ .ldDtVx x) (hp : p = .cyc ∨ p = .dt) :
    p ∉ .pc :: writes i s := by
  rcases hp with rfl | rfl <;> cases i with
  | ldDtVx x => exact absurd rfl (hi x)
  | call => rw [writes]; split <;> simp
  | ldBVx | ldMemVx => simp [writes, mem_memPieces]
  | ldVxMem => simp [writes, mem_regPieces]
  | _ => simp [writes]

/-- An unfaulted step of a running core, Fx15 apart: `cyc` advances modulo 12 (R145), and DT counts
down exactly when it comes to 0 (R147, R338). -/
theorem step_cyc_dt (hs : s.fault = none) (hw : s.wait = .running) (hstep : step s = .next t)
    (ht : t.fault = none) (hi : ∀ x, ¬s.AboutToRun (.ldDtVx x)) :
    t.cyc.val = (s.cyc.val + 1) % 12 ∧
    t.dt.toNat = if t.cyc.val = 0 then s.dt.toNat - 1 else s.dt.toNat := by
  rcases step_unfaulted_cases hs hstep ht with ⟨x, hx, -⟩ | ⟨i, hruns, hexec⟩
  · exact nomatch hw.symm.trans hx
  · have hne : ∀ x, i ≠ .ldDtVx x := fun x e => hi x (e ▸ hruns)
    have hcyc : t.cyc = s.latch.tick.cyc :=
      exec_agree (p := .cyc) i hexec ht (cyc_dt_notMem_writes hne (.inl rfl)) nofun
    have hdt : t.dt = s.latch.tick.dt :=
      exec_agree (p := .dt) i hexec ht (cyc_dt_notMem_writes hne (.inr rfl)) nofun
    have hcount : s.latch.cyc = s.cyc + 1 := by simp [State.counted, hw]
    rw [hdt, State.tick_dt_toNat, hcyc, State.tick_cyc]
    exact ⟨hcount ▸ Fin.val_add s.cyc 1, rfl⟩

/-- `n` steps after a state with `cyc = c` and `DT = d`: one tick at each multiple of 12 the count has
passed, and DT saturates at 0. -/
def State.OnSchedule (c d n : Nat) (s : State) : Prop :=
  s.cyc.val = (c + n) % 12 ∧ s.dt.toNat = d - (c + n) / 12

theorem State.onSchedule_zero (s : State) : s.OnSchedule s.cyc.val s.dt.toNat 0 := by
  unfold State.OnSchedule
  omega

theorem State.OnSchedule.succ {c d n : Nat} (h : s.OnSchedule c d n) (hs : s.fault = none)
    (hw : s.wait = .running) (hstep : step s = .next t) (ht : t.fault = none)
    (hi : ∀ x, ¬s.AboutToRun (.ldDtVx x)) : t.OnSchedule c d (n + 1) := by
  obtain ⟨hcyc, hdt⟩ := h
  obtain ⟨hcyc', hdt'⟩ := step_cyc_dt hs hw hstep ht hi
  unfold State.OnSchedule
  split at hdt' <;> omega

/-- Settles O19: by induction on the steps the run keeps its schedule, and sixty steps pass five
multiples of 12 from every phase of `cyc`. -/
theorem delayTimerSixtySteps : Obligations.DelayTimerSixtySteps := by
  unfold Obligations.DelayTimerSixtySteps
  intro f hrun hlast hstart
  have hunfaulted : ∀ n ≤ 60, (f n).fault = none := fun n hn =>
    (Nat.lt_or_eq_of_le hn).elim (fun hlt => (hrun n hlt).1) (fun e => e ▸ hlast)
  have hsched : ∀ n ≤ 60, (f n).OnSchedule (f 0).cyc.val 5 n := by
    intro n
    induction n with
    | zero => simpa [hstart] using (f 0).onSchedule_zero
    | succ n ih =>
      intro hn
      obtain ⟨hs, hw, hstep, hi⟩ := hrun n hn
      exact (ih (by omega)).succ hs hw hstep (hunfaulted (n + 1) hn) hi
  obtain ⟨-, hdt⟩ := hsched 60 le_rfl
  have : (f 60).dt.toNat = 0 := by omega
  exact BitVec.eq_of_toNat_eq this

end Sys2Proof.Machine
end

section
/-!
O15: of the operations an instruction is made of, only a push and a pop can stop the model, and only
with SP above 16 (log entry 10); every other early end is a raise, which is itself a next state.
-/

namespace Sys2Proof.Machine

variable {s : State}

/-- A handler answers a next state unless its statements end in the model's own fault. -/
theorem exists_finish_map_eq_next {α : Type} {r : Run α} (f : α → State)
    (h : ∀ e, r ≠ .error (.fault e)) : ∃ t, finish s (r.map f) = .next t := by
  match r, h with
  | .ok a, _ => exact ⟨f a, rfl⟩
  | .error (.fatal e), _ => exact ⟨raise e s, rfl⟩
  | .error (.fault e), h => exact absurd rfl (h e)

theorem State.loadList_ne_fault (s : State) (a n : Nat) (e : Fault) :
    s.loadList a n ≠ .error (.fault e) := by
  rcases s.loadList_cases n a with ⟨-, h⟩ | ⟨k, -, -, -, h⟩ <;> simp [h]

theorem State.storeList_ne_fault (s : State) (a : Nat) (bs : List Byte) (e : Fault) :
    s.storeList a bs ≠ .error (.fault e) := by
  rcases s.storeList_cases bs a with ⟨-, h⟩ | ⟨k, -, -, -, h⟩ <;> simp [h]

theorem State.key_ne_fault (s : State) (k : Byte) (e : Fault) : s.key k ≠ .error (.fault e) := by
  rcases s.key_cases k with ⟨hk, h⟩ | ⟨-, h⟩ <;> simp [h]

theorem State.indexSum_ne_fault (s : State) (x : RegIx) (e : Fault) :
    s.indexSum x ≠ .error (.fault e) := by
  rcases s.indexSum_cases x with ⟨-, h⟩ | ⟨-, h⟩ <;> simp [h]

theorem State.push_ne_fault (hsp : s.sp.toNat ≤ 16) (w : Word) (e : Fault) :
    s.push w ≠ .error (.fault e) := by
  rcases s.push_cases w with ⟨hlt, h⟩ | ⟨-, h⟩ | ⟨hgt, -⟩
  · simp [h]
  · simp [h]
  · omega

theorem State.pop_ne_fault (hsp : s.sp.toNat ≤ 16) (e : Fault) : s.pop ≠ .error (.fault e) := by
  rcases s.pop_cases with ⟨-, h⟩ | ⟨hlt, -, h⟩ | ⟨hgt, -⟩
  · simp [h]
  · simp [h]
  · omega

/-- Every instruction answers a next state where SP has a value of R38. -/
theorem exists_exec_eq_next (i : Instr) (hsp : s.sp.toNat ≤ 16) : ∃ t, exec i s = .next t := by
  cases i with
  | ret => exact exists_finish_map_eq_next _ (State.pop_ne_fault hsp)
  | call => exact exists_finish_map_eq_next _ (State.push_ne_fault hsp _)
  | drw | ldVxMem => exact exists_finish_map_eq_next _ (s.loadList_ne_fault _ _)
  | ldBVx | ldMemVx => exact exists_finish_map_eq_next _ (s.storeList_ne_fault _ _)
  | skp | sknp => exact exists_finish_map_eq_next _ (s.key_ne_fault _)
  | addIVx => exact exists_finish_map_eq_next _ (s.indexSum_ne_fault _)
  | _ => exact ⟨_, rfl⟩

/-- Settles O15: a faulted core stays, a wait step ends with phase 2, and phases 4 to 6 of a running
core raise or run an instruction with SP in the bounds of the invariant. -/
theorem invariantStatesAlwaysStep : Obligations.InvariantStatesAlwaysStep := by
  unfold Obligations.InvariantStatesAlwaysStep
  intro s hinv
  rcases step_cases s with ⟨-, h⟩ | ⟨-, x, -, h⟩ | ⟨hf, -, h⟩
  · exact ⟨s, h⟩
  · exact ⟨_, h⟩
  · rw [h]
    rcases s.latch.tick.runInstr_cases with ⟨-, hr⟩ | ⟨-, w, -, ⟨e, -, hr⟩ | ⟨i, -, hr⟩⟩
    · exact ⟨_, hr⟩
    · exact ⟨_, hr⟩
    · obtain ⟨hsp, -, -⟩ := hinv.latch.tick.bounded (by simpa using hf)
      exact hr ▸ exists_exec_eq_next i hsp

end Sys2Proof.Machine
end

section
/-!
O22: construction is its size check, and what it answers in each case; the program stands in the
memory written last, so every byte of its region reads back.
-/

namespace Sys2Proof.Machine

variable {cfg : Params} {font : Vector Byte 80} {program : List Byte}

/-- The memory of a core under construction: zeros, the font and then the program (R360). -/
def Memory.constructed (font : Vector Byte 80) (program : List Byte) : Memory :=
  (Memory.setList [] 0 font.toList).setList programBase program

theorem construct_of_fits (h : 1 ≤ program.length ∧ program.length ≤ programMax) :
    construct cfg font program =
      .ok { State.reset with cfg := cfg, mem := Memory.constructed font program } :=
  if_pos h

theorem construct_of_not_fits (h : ¬(1 ≤ program.length ∧ program.length ≤ programMax)) :
    construct cfg font program = .error (.programSize program.length) :=
  if_neg h

theorem Memory.setList_font_wf (font : Vector Byte 80) : (Memory.setList [] 0 font.toList).wf :=
  Memory.setList_wf _ _ ⟨.nil, nofun⟩ _ (by simp)

/-- In the program's region the font, which was written first, is never read. -/
theorem Memory.get_constructed_program {a : Nat} (hlo : programBase ≤ a)
    (hhi : a < programBase + program.length) :
    (Memory.constructed font program).get a = program.getD (a - programBase) 0 :=
  (Memory.get_setList program _ (Memory.setList_font_wf font).1 _ a).trans (if_pos ⟨hlo, hhi⟩)

/-- Settles O22: the size check decides, and 3584 bytes from 0x200 on end at 0xFFF. -/
theorem constructionSizeCheck : Obligations.ConstructionSizeCheck := by
  unfold Obligations.ConstructionSizeCheck
  refine fun cfg font program => ⟨fun hfits => ?_, construct_of_not_fits⟩
  refine ⟨_, construct_of_fits hfits, fun hlen a hlo hhi => Memory.get_constructed_program hlo ?_⟩
  have : programBase = 0x200 := rfl
  omega

end Sys2Proof.Machine
end

section
/-!
The illegal words (O4, O5): each family rejects the words with an undefined selector and no others,
and the verdict always names the word.
-/

namespace Sys2Proof

variable {w : Word} {e : Reject}

/-- R115: the illegal words, by family. -/
def UndefinedWord (w : Word) : Prop :=
  ((fieldOp w = 0x5#4 ∨ fieldOp w = 0x9#4) ∧ fieldN w ≠ 0x0#4) ∨
  (fieldOp w = 0x8#4 ∧ fieldN w ∈ [0x8#4, 0x9#4, 0xA#4, 0xB#4, 0xC#4, 0xD#4, 0xF#4]) ∨
  (fieldOp w = 0xE#4 ∧ fieldKk w ∉ [0x9E#8, 0xA1#8]) ∨
  (fieldOp w = 0xF#4 ∧
    fieldKk w ∉ [0x07#8, 0x0A#8, 0x15#8, 0x18#8, 0x1E#8, 0x29#8, 0x33#8, 0x55#8, 0x65#8])

theorem decode0_ne_error : decode0 w ≠ .error e := by
  unfold decode0
  split
  · nofun
  · split <;> nofun

theorem decode5_eq_error_iff :
    decode5 w = .error e ↔ fieldN w ≠ 0x0#4 ∧ e = .undefinedOpcode w := by
  unfold decode5
  split <;> simp_all [eq_comm (a := e)]

theorem decode9_eq_error_iff :
    decode9 w = .error e ↔ fieldN w ≠ 0x0#4 ∧ e = .undefinedOpcode w := by
  unfold decode9
  split <;> simp_all [eq_comm (a := e)]

/-- The nine selectors of family 8 leave seven nibbles. -/
theorem selector8_undefined_iff (n : BitVec 4) :
    n ∈ [0x8#4, 0x9#4, 0xA#4, 0xB#4, 0xC#4, 0xD#4, 0xF#4] ↔
      n ∉ [0x0#4, 0x1#4, 0x2#4, 0x3#4, 0x4#4, 0x5#4, 0x6#4, 0x7#4, 0xE#4] := by
  revert n
  decide

theorem decode8_eq_error_iff : decode8 w = .error e ↔
    fieldN w ∈ [0x8#4, 0x9#4, 0xA#4, 0xB#4, 0xC#4, 0xD#4, 0xF#4] ∧ e = .undefinedOpcode w := by
  rw [selector8_undefined_iff]
  unfold decode8
  split <;> simp_all [eq_comm (a := e)]

theorem decodeE_eq_error_iff : decodeE w = .error e ↔
    fieldKk w ∉ [0x9E#8, 0xA1#8] ∧ e = .undefinedOpcode w := by
  unfold decodeE
  split <;> simp_all [eq_comm (a := e)]

theorem decodeF_eq_error_iff : decodeF w = .error e ↔
    fieldKk w ∉ [0x07#8, 0x0A#8, 0x15#8, 0x18#8, 0x1E#8, 0x29#8, 0x33#8, 0x55#8, 0x65#8] ∧
      e = .undefinedOpcode w := by
  unfold decodeF
  split <;> simp_all [eq_comm (a := e)]

/-- The decoder's last arm is for no nibble. -/
theorem fieldOp_mem (w : Word) : fieldOp w ∈ [0x0#4, 0x1#4, 0x2#4, 0x3#4, 0x4#4, 0x5#4, 0x6#4,
    0x7#4, 0x8#4, 0x9#4, 0xA#4, 0xB#4, 0xC#4, 0xD#4, 0xE#4, 0xF#4] := by
  generalize fieldOp w = op
  revert op
  decide

/-- R105, R115: the case `h_1` is the family of the top nibble 0, `h_16` that of F. -/
theorem decode_eq_error_iff :
    decode w = .error e ↔ UndefinedWord w ∧ e = .undefinedOpcode w := by
  unfold decode UndefinedWord
  split <;> rename_i hop
  case h_1 => simp [hop, decode0_ne_error]
  case h_6 => simp [hop, decode5_eq_error_iff]
  case h_9 => simp [hop, decode8_eq_error_iff]
  case h_10 => simp [hop, decode9_eq_error_iff]
  case h_15 => simp [hop, decodeE_eq_error_iff]
  case h_16 => simp [hop, decodeF_eq_error_iff]
  case h_17 => exact absurd (fieldOp_mem w) (by simp_all)
  all_goals simp [hop]

/-- Settles O4: the rejected words are the undefined ones of their family, with one verdict. -/
theorem undefinedWordsByFamily : Obligations.UndefinedWordsByFamily := by
  unfold Obligations.UndefinedWordsByFamily
  intro w
  have hiff (e : Reject) : decode w = .error e ↔ UndefinedWord w ∧ e = .undefinedOpcode w :=
    decode_eq_error_iff
  rw [hiff]
  exact ⟨and_iff_left rfl, fun e he => ((hiff e).mp he).2⟩

/-- Settles O5: the decoder evaluated on thirteen words. -/
theorem sampleWordsDecode : Obligations.SampleWordsDecode := by
  unfold Obligations.SampleWordsDecode
  decide

end Sys2Proof
end

section
/-!
What a step of a faulted core does (O10, O24), and the two raises of a running core's step: the
decode's (O11) and the fetch's, with the other accesses out of range (O25).
-/

namespace Sys2Proof.Machine

variable {s : State} {e : Reject}

theorem step_of_faulted (hf : s.fault ≠ none) : step s = .next s := by
  rcases step_cases s with ⟨-, h⟩ | ⟨hn, -⟩ | ⟨hn, -⟩
  · exact h
  · exact absurd hn hf
  · exact absurd hn hf

/-- R144 over any number of steps. -/
theorem core_run_of_faulted (hf : s.fault ≠ none) (n : Nat) :
    Host.Core.run core n s = .next s := by
  induction n with
  | zero => rfl
  | succ n ih => exact (core_run_succ n (step_of_faulted hf)).trans ih

/-- Settles O10: by induction on the number of steps. -/
theorem faultedCoreNeverChanges : Obligations.FaultedCoreNeverChanges := by
  unfold Obligations.FaultedCoreNeverChanges
  exact fun n s hf => core_run_of_faulted hf n

/-- Settles O24: a raise leaves a faulted core, which never changes. -/
theorem fatalEntryIsFinal : Obligations.FatalEntryIsFinal := by
  unfold Obligations.FatalEntryIsFinal
  exact fun f s => ⟨raise_fault f s, raise_mem_wf f s, core_run_of_faulted (by simp)⟩

theorem step_of_running (hf : s.fault = none) (hw : s.wait = .running) :
    step s = s.latch.tick.runInstr := by
  simp [step, State.cycle, hf, hw]

/-- A word the decoder rejects raises in phase 5 (R149, R323). -/
theorem State.runInstr_of_reject (hpc : s.pc.toNat ≤ 0xFFE) (hd : decode s.wordAtPc = .error e) :
    s.runInstr = .next (raise (.undefinedOpcode s.pc s.wordAtPc) s) := by
  rcases s.runInstr_cases with ⟨hout, -⟩ | ⟨-, w, rfl, ⟨-, -, hrun⟩ | ⟨i, hi, -⟩⟩
  · omega
  · exact hrun
  · exact nomatch hd.symm.trans hi

/-- A `pc` above 0xFFE raises in phase 4 (R148, R322). -/
theorem State.runInstr_of_unfetchable (hpc : 0xFFE < s.pc.toNat) :
    s.runInstr = .next (raise (.memoryOutOfRange s.pc (max s.pc.toNat 0x1000)) s) := by
  rcases s.runInstr_cases with ⟨-, hrun⟩ | ⟨hin, -⟩
  · exact hrun
  · omega

/-- Settles O11: the tick leaves the word at `pc` to be fetched, and its decoding raises. -/
theorem illegalWordFaults : Obligations.IllegalWordFaults := by
  unfold Obligations.IllegalWordFaults
  intro s e hf hw hpc hd
  have hrun := State.runInstr_of_reject (s := s.latch.tick) (by simpa using hpc) (by simpa using hd)
  exact ⟨_, (step_of_running hf hw).trans hrun, by simp⟩

/-- Settles O25: the fetch raises at the first of its two addresses out of range, the four
instructions at the first of theirs. -/
theorem outOfRangeAccessFaults : Obligations.OutOfRangeAccessFaults := by
  unfold Obligations.OutOfRangeAccessFaults
  refine ⟨?fetch, ?drw, ?ldBVx, ?ldMemVx, ?ldVxMem⟩
  case fetch =>
    intro s hf hw k hk hout hin
    have hrun := State.runInstr_of_unfetchable (s := s.latch.tick)
      (by rw [State.tick_pc, State.latch_pc]; omega)
    have haddr : max s.pc.toNat 0x1000 = s.pc.toNat + k := by
      rcases Nat.le_one_iff_eq_zero_or_eq_one.mp hk with rfl | rfl
      · omega
      · have := hin 0 one_pos
        omega
    exact ⟨_, (step_of_running hf hw).trans hrun, by simp [haddr]⟩
  case drw =>
    exact fun s x y n k hk hout hin => ⟨_, finish_loadList_of_gt hk hout hin, raise_fault _ s⟩
  case ldBVx =>
    exact fun s x k hk hout hin => ⟨_, finish_storeList_of_gt hk hout hin, raise_fault _ s⟩
  case ldMemVx =>
    intro s x k hk hout hin
    have hlen : k < (s.regsUpTo x).length := by
      rw [State.regsUpTo_length]
      exact Nat.lt_succ_of_le hk
    exact ⟨_, finish_storeList_of_gt hlen hout hin, raise_fault _ s⟩
  case ldVxMem =>
    exact fun s x k hk hout hin =>
      ⟨_, finish_loadList_of_gt (Nat.lt_succ_of_le hk) hout hin, raise_fault _ s⟩

end Sys2Proof.Machine
end

section
/-!
The step's frame facts: the parameters (O16), the latch phase (O7), and a finished core, whose whole
step is the latch and the tick (O20).
-/

namespace Sys2Proof.Machine

variable {s t : State} {p : Piece}

theorem Raised.cfg_eq (h : Raised s t) : t.cfg = s.cfg := by
  obtain ⟨f, rfl⟩ := h
  exact raise_cfg f s

/-- No instruction writes the parameters, and a raise keeps them (log entry 3). -/
theorem exec_cfg (i : Instr) (hx : exec i s = .next t) : t.cfg = s.cfg := by
  cases i with
  | ret => exact (exec_ret_cases hx).elim Raised.cfg_eq fun ⟨_, _, e⟩ => e ▸ rfl
  | call => exact (exec_call_cases hx).elim Raised.cfg_eq fun ⟨_, e⟩ => e ▸ rfl
  | drw => exact (exec_drw_cases hx).elim Raised.cfg_eq fun e => e ▸ rfl
  | skp => exact (exec_skp_cases hx).elim Raised.cfg_eq fun ⟨_, e⟩ => e ▸ s.apply_cfg _
  | sknp => exact (exec_sknp_cases hx).elim Raised.cfg_eq fun ⟨_, e⟩ => e ▸ s.apply_cfg _
  | addIVx => exact (exec_addIVx_cases hx).elim Raised.cfg_eq fun e => e ▸ rfl
  | ldBVx => exact (exec_ldBVx_cases hx).elim Raised.cfg_eq fun ⟨_, e⟩ => e ▸ rfl
  | ldMemVx => exact (exec_ldMemVx_cases hx).elim Raised.cfg_eq fun ⟨_, e⟩ => e ▸ rfl
  | ldVxMem => exact (exec_ldVxMem_cases hx).elim Raised.cfg_eq fun e => by simp [e]
  | seImm | sneImm | seReg | sneReg => cases hx; exact s.apply_cfg _
  | _ => cases hx; rfl

@[simp] theorem State.resolveWait_cfg (s : State) (x : RegIx) :
    (s.resolveWait x).cfg = s.cfg := by
  rcases s.resolveWait_cases x with ⟨k, -, h⟩ | ⟨-, h⟩ <;> simp [h]

/-- Settles O16: no phase of a step writes the parameters, a raise and an instruction included. -/
theorem stepKeepsParameters : Obligations.StepKeepsParameters := by
  unfold Obligations.StepKeepsParameters
  intro s t hstep
  rcases step_cases s with ⟨-, h⟩ | ⟨-, x, -, h⟩ | ⟨-, -, h⟩
  · cases hstep.symm.trans h
    rfl
  · cases hstep.symm.trans h
    simp
  · rcases s.latch.tick.runInstr_cases with ⟨-, hr⟩ | ⟨-, w, -, ⟨e, -, hr⟩ | ⟨i, -, hr⟩⟩
    · cases hstep.symm.trans (h.trans hr)
      simp
    · cases hstep.symm.trans (h.trans hr)
      simp
    · simpa using exec_cfg i (hr.symm.trans (h.symm.trans hstep))

/-- R145: which steps count toward the timer cadence. -/
theorem State.counted_iff (s : State) :
    s.counted = true ↔ s.cfg.timerCountBlocked = true ∨ s.wait = .running := by
  simp [State.counted]

/-- Settles O7: the input at the head of the queue, the count of a step, and the frame. -/
theorem latchPhaseEffect : Obligations.LatchPhaseEffect := by
  unfold Obligations.LatchPhaseEffect
  refine fun s => ⟨fun inp rest hin => ?input, rfl, fun hc => ?counted, fun ⟨hb, hw⟩ => ?uncounted,
    rfl, s.latch_changesOnly⟩
  case input => simp [State.nextInput_of_cons hin, hin]
  case counted =>
    rw [s.latch_cyc, if_pos (s.counted_iff.mpr hc)]
    exact Fin.val_add s.cyc 1
  case uncounted =>
    rw [s.latch_cyc, if_neg (by simp [s.counted_iff, hb, hw])]

/-- `pc` as the address field of an instruction. -/
def State.pcAddr (s : State) : Addr := s.pc.setWidth 12

theorem State.pcAddr_toNat (h : s.pc.toNat ≤ 0xFFE) : s.pcAddr.toNat = s.pc.toNat := by
  rw [State.pcAddr, BitVec.toNat_setWidth]
  omega

/-- R372: what a finished core runs is a jump to its own address. -/
theorem State.finished.aboutToRun (h : s.finished) : s.AboutToRun (.jp s.pcAddr) := by
  obtain ⟨hf, hw, hpc, hword⟩ := h
  have hjp : s.wordAtPc = encode (.jp s.pcAddr) := by
    apply BitVec.eq_of_toNat_eq
    rw [hword, encode, wordNNN_toNat, State.pcAddr_toNat hpc]
    bv_omega
  exact ⟨hf, hw, hpc, hjp ▸ decode_encode rfl⟩

/-- A jump to the address it stands at changes nothing. -/
theorem exec_jp_self {nnn : Addr} (h : zextAddr nnn = s.pc) : exec (.jp nnn) s = .next s :=
  congrArg (fun a => Host.Outcome.next (s.apply (.jump a))) h

/-- The step of a finished core is its phases 1 and 3. -/
theorem step_of_finished (h : s.finished) : step s = .next s.latch.tick := by
  refine h.aboutToRun.step_eq.trans (exec_jp_self (BitVec.eq_of_toNat_eq ?_))
  rw [zextAddr_toNat, State.pcAddr_toNat h.aboutToRun.fetchable, State.tick_pc, State.latch_pc]

/-- Settles O20: the step is the latch and the tick, which leave the jump and write the listed
pieces at most. -/
theorem finishedStaysFinished : Obligations.FinishedStaysFinished := by
  unfold Obligations.FinishedStaysFinished
  intro s h
  refine ⟨_, step_of_finished h, by simpa [State.finished] using h,
    (s.latch_changesOnly.trans s.latch.tick_changesOnly).mono ?_⟩
  refine List.append_subset.mpr ⟨List.subset_append_of_subset_left _ (by simp),
    List.append_subset.mpr ⟨List.subset_append_of_subset_left _ (by simp),
      List.subset_append_right _ _⟩⟩

end Sys2Proof.Machine
end

section
/-!
Construction and reset (O9, O14, O23): memory outside the program and the font reads as 0, and the
state after reset meets the invariant, which a constructed core shares apart from its memory.
-/

namespace Sys2Proof.Machine

variable {cfg : Params} {font : Vector Byte 80} {program : List Byte} {s : State} {a : Nat}

/-- Above the font an address no write has touched reads as 0 (R363, log entry 9). -/
theorem Memory.init_of_ge (h : 80 ≤ a) : Memory.init a = 0 :=
  List.getD_eq_default _ _ h

theorem Memory.get_nil (a : Nat) : Memory.get [] a = Memory.init a := rfl

/-- Settles O9: each field as the reset state lists it; its memory lists nothing. -/
theorem resetValues : Obligations.ResetValues := by
  unfold Obligations.ResetValues
  refine ⟨rfl, rfl, rfl, by decide, by decide, rfl, rfl, rfl, Framebuffer.at_blank, rfl, by decide,
    rfl, rfl, rfl, rfl, fun a => ?_⟩
  split
  · rfl
  · exact Memory.init_of_ge (by omega)

/-- Settles O14: SP, `pc` and the stack at reset are in bounds, and the empty memory is canonical. -/
theorem resetMeetsInvariant : Obligations.ResetMeetsInvariant := by
  unfold Obligations.ResetMeetsInvariant
  exact ⟨⟨.nil, nofun⟩, fun _ => ⟨by decide, by decide, by decide⟩⟩

/-- The font, written first, is read below the program (R360). -/
theorem Memory.get_constructed_font (h : a < 80) :
    (Memory.constructed font program).get a = font[a] := by
  have hlow : ¬programBase ≤ a := by simp only [programBase]; omega
  rw [Memory.constructed, Memory.get_setList program _ (Memory.setList_font_wf font).1,
    if_neg fun hin => hlow hin.1, Memory.get_setList _ _ .nil, if_pos (by simpa using h)]
  simp [h]

/-- Outside the font and the program a constructed core holds 0 (log entry 9). -/
theorem Memory.get_constructed_zero (hfont : 80 ≤ a)
    (hout : a < programBase ∨ programBase + program.length ≤ a) :
    (Memory.constructed font program).get a = 0 := by
  rw [Memory.constructed, Memory.get_setList program _ (Memory.setList_font_wf font).1,
    if_neg (by omega), Memory.get_setList _ _ .nil, if_neg (by simp [hfont]), Memory.get_nil,
    Memory.init_of_ge hfont]

theorem Memory.constructed_wf (h : program.length ≤ programMax) :
    (Memory.constructed font program).wf :=
  Memory.setList_wf _ _ (Memory.setList_font_wf font) _ (by
    simp only [programBase, programMax] at *
    omega)

/-- What a construction that succeeds answers (R361). -/
theorem construct_eq_ok (h : construct cfg font program = .ok s) :
    program.length ≤ programMax ∧
      s = { State.reset with cfg := cfg, mem := Memory.constructed font program } := by
  by_cases hfits : 1 ≤ program.length ∧ program.length ≤ programMax
  · exact ⟨hfits.2, Except.ok.inj (h.symm.trans (construct_of_fits hfits))⟩
  · exact nomatch h.symm.trans (construct_of_not_fits hfits)

/-- Settles O23: the regions of memory one by one; the other pieces are those of the reset state. -/
theorem constructedCore : Obligations.ConstructedCore := by
  unfold Obligations.ConstructedCore
  intro cfg font program s h
  obtain ⟨hlen, rfl⟩ := construct_eq_ok h
  refine ⟨fun a => Memory.get_constructed_font a.isLt, fun a hlo hhi => ?gap, fun k hk => ?program,
    fun a ha => ?above, rfl, ?inv, fun p hdraw htimer hmem => ?frame⟩
  case gap => exact Memory.get_constructed_zero hlo (.inl hhi)
  case program =>
    have hget := Memory.get_constructed_program (font := font) (program := program)
      (a := programBase + k) (by omega) (by omega)
    rwa [Nat.add_sub_cancel_left] at hget
  case above => exact Memory.get_constructed_zero (by omega) (.inr ha)
  case inv =>
    obtain ⟨hsp, hpc, hstack⟩ := resetMeetsInvariant.bounded rfl
    exact ⟨Memory.constructed_wf hlen, fun _ => ⟨hsp, hpc, hstack⟩⟩
  case frame =>
    cases p with
    | drawVfInit => exact absurd rfl hdraw
    | timerCountBlocked => exact absurd rfl htimer
    | mem a => exact absurd rfl (hmem a)
    | _ => rfl

end Sys2Proof.Machine
end

section
/-!
The host's placing of an instruction (O21): a word of the opcode table, laid out as two bytes in a
canonical memory, is the word the next fetch reads.
-/

namespace Sys2Proof.Machine

variable {s : State} {w : Word} {i : Instr}

/-- The bytes of the table's word decode as the word does (R71). -/
theorem decode_tableWord {nbits n : Nat} (h : decodeTableWord nbits n = some i) :
    decode (tableWord nbits n) = .ok i := by
  rw [decodeTableWord, decodeBytes, wordOf_bytes] at h
  cases hd : decode (tableWord nbits n) with
  | error e => simp [hd, Except.map] at h
  | ok j => simpa [hd, Except.map] using h

theorem State.placePc_le (s : State) : s.placePc.toNat ≤ 0xFFE := by
  unfold State.placePc
  split
  · assumption
  · decide

theorem State.wordAtPc_placeWord (hwf : s.mem.wf) : (s.placeWord w).wordAtPc = w := by
  have hget := Memory.get_setList [hiByte w, loByte w] s.mem hwf.1 s.placePc.toNat
  simp [State.wordAtPc, State.placeWord, hget, wordOf_bytes]

/-- Settles O21: the placing clears fault and wait, picks a `pc` a fetch succeeds from, and the two
bytes stored there are read back as the word. -/
theorem placedWordIsRunNext : Obligations.PlacedWordIsRunNext := by
  unfold Obligations.PlacedWordIsRunNext
  intro s nbits n i hwf h
  exact ⟨rfl, rfl, s.placePc_le, (State.wordAtPc_placeWord hwf).symm ▸ decode_tableWord h⟩

end Sys2Proof.Machine
end

section
/-!
The control-flow family: the jump with offset (O33), and the call stack (O26, O35 to O37), where the
depth SP decides what a call and a return do.
-/

namespace Sys2Proof.Machine

variable {s : State} {nnn : Addr}

/-- The sum of Bnnn is exact: an address and a byte together stay below 0x10FF (R200). -/
theorem State.offsetTarget_toNat (s : State) (nnn : Addr) :
    (s.offsetTarget nnn).toNat = nnn.toNat + (s.reg 0).toNat := by
  have haddr := nnn.isLt
  have hbyte := (s.reg 0).isLt
  rw [State.offsetTarget, zextByte, BitVec.toNat_add, zextAddr_toNat, BitVec.toNat_setWidth]
  omega

/-- Settles O33: the handler jumps to the exact sum and writes nothing else. -/
theorem jumpWithOffset : Obligations.JumpWithOffset := by
  unfold Obligations.JumpWithOffset
  exact fun s nnn => ⟨_, rfl, s.offsetTarget_toNat nnn, s.apply_changesOnly _⟩

theorem exec_call (nnn : Addr) (s : State) : exec (.call nnn) s =
    finish s ((s.push s.returnAddr).map fun t => t.apply (.jump (zextAddr nnn))) := rfl

theorem exec_ret (s : State) :
    exec .ret s = finish s (s.pop.map fun p => p.2.apply (.jump p.1)) := rfl

/-- A call with room on the stack (R190, R195). -/
theorem exec_call_of_lt (h : s.sp.toNat < 16) : exec (.call nnn) s = .next (State.apply
    { s with stack := s.stack.set s.sp.toNat s.returnAddr h, sp := s.sp + 1 }
    (.jump (zextAddr nnn))) := by
  rw [exec_call, State.push, dif_pos h, map_ok, finish_ok]

theorem exec_call_of_full (h : s.sp = 16) :
    exec (.call nnn) s = .next (raise (.stackOverflow s.pc) s) := by
  rw [exec_call, State.push, dif_neg (by simp [h]), if_pos h, map_error, finish_fatal]

/-- A return with an entry on the stack (R191, R192). -/
theorem exec_ret_of_pos (h : s.sp.toNat - 1 < 16) (hpos : 0 < s.sp.toNat) : exec .ret s =
    .next (State.apply { s with sp := s.sp - 1 } (.jump (s.stack.get ⟨s.sp.toNat - 1, h⟩))) := by
  rw [exec_ret, State.pop, if_neg (fun e => by simp [e] at hpos), dif_pos h, map_ok, finish_ok]
  rfl

theorem exec_ret_of_empty (h : s.sp = 0) :
    exec .ret s = .next (raise (.stackUnderflow s.pc) s) := by
  rw [exec_ret, State.pop, if_pos h, map_error, finish_fatal]

/-- Settles O35: by the depth of the stack the push succeeds or raises. -/
theorem callPushesAndJumps : Obligations.CallPushesAndJumps := by
  unfold Obligations.CallPushesAndJumps
  refine fun s nnn => ⟨fun h => ?_, fun h => ⟨_, exec_call_of_full h, raise_fault _ s⟩⟩
  have hframe := ((s.pushed_changesOnly s.returnAddr (s.sp + 1) h).apply
    (.jump (zextAddr nnn))).mono (qs := [.stack ⟨s.sp.toNat, h⟩, .sp, .pc]) (by simp)
  exact ⟨_, exec_call_of_lt h, Vector.getElem_set_self _, rfl, zextAddr_toNat nnn, hframe⟩

/-- Settles O36: by the depth of the stack the pop succeeds or raises. -/
theorem returnPopsAndJumps : Obligations.ReturnPopsAndJumps := by
  unfold Obligations.ReturnPopsAndJumps
  refine fun s => ⟨fun h hpos => ?_, fun h => ⟨_, exec_ret_of_empty h, raise_fault _ s⟩⟩
  have hframe := ((s.popped_changesOnly (s.sp - 1)).apply
    (.jump (s.stack.get ⟨s.sp.toNat - 1, h⟩))).mono (qs := [.sp, .pc]) (by simp)
  exact ⟨_, exec_ret_of_pos h hpos, rfl, rfl, hframe⟩

/-- Settles O37: the entry the call pushes is the one the return pops. -/
theorem callThenReturn : Obligations.CallThenReturn := by
  unfold Obligations.CallThenReturn
  intro s nnn hsp
  obtain ⟨t, ht, hpushed, htsp, -, -⟩ := (callPushesAndJumps s nnn).1 hsp
  have hdepth : t.sp.toNat - 1 = s.sp.toNat ∧ 0 < t.sp.toNat := by
    rw [htsp]
    bv_omega
  have htop : t.sp.toNat - 1 < 16 := hdepth.1 ▸ hsp
  obtain ⟨u, hu, hupc, husp, -⟩ := (returnPopsAndJumps t).1 htop hdepth.2
  have hentry : (⟨t.sp.toNat - 1, htop⟩ : Fin 16) = ⟨s.sp.toNat, hsp⟩ := Fin.ext hdepth.1
  refine ⟨t, u, ht, hu, ?_, ?_⟩
  · rw [hupc, hentry, hpushed]
  · rw [husp, htsp, BitVec.add_sub_cancel]

/-- Settles O26: above 16 neither a push nor a pop has an entry to use, and the invariant bounds SP. -/
theorem illegalStackDepthStops : Obligations.IllegalStackDepthStops := by
  unfold Obligations.IllegalStackDepthStops
  refine ⟨fun s nnn h => ⟨?call, ?ret⟩, fun s hinv hf => not_lt.mpr (hinv.bounded hf).sp_le⟩
  case call =>
    rw [exec_call, State.push, dif_neg (by omega), if_neg (fun e => by simp [e] at h), map_error,
      finish_fault]
  case ret =>
    rw [exec_ret, State.pop, if_neg (fun e => by simp [e] at h), dif_neg (by omega), map_error,
      finish_fault]

end Sys2Proof.Machine
end

section
/-!
The arithmetic and logic family, the instructions that write Vx and VF (O40 to O43), and what VF means
after each instruction of the family (O44).
-/

namespace Sys2Proof.Machine

variable {s : State} {x y z : RegIx} {b c : Byte} {i : Instr}

/-- What an instruction does whose effect is two register writes and NEXT. -/
theorem exec_setReg_setReg_next
    (h : exec i s = .next (((s.setReg y b).setReg z c).apply .next)) :
    ∃ t, exec i s = .next t ∧ t.reg z = c ∧ (y ≠ z → t.reg y = b) ∧ t.pc = s.pc + 2#16 ∧
      ChangesOnly [.reg y, .reg z, .pc] s t := by
  have hlast : (((s.setReg y b).setReg z c).apply .next).reg z = c := by simp
  have hfirst (hne : y ≠ z) : (((s.setReg y b).setReg z c).apply .next).reg y = b := by
    simp [State.reg_setReg_ne _ c hne]
  have hframe := ((s.setReg_setReg_changesOnly y z b c).apply .next).mono
    (qs := [.reg y, .reg z, .pc]) (by simp)
  exact ⟨_, h, hlast, hfirst, rfl, hframe⟩

/-! The flags and sums as numbers (R227, R230). -/

theorem flagByte_decide (p : Prop) [Decidable p] : flagByte (decide p) = if p then 1#8 else 0#8 := by
  simp [flagByte]

theorem flag_eq_one_iff (p : Prop) [Decidable p] : (if p then 1#8 else 0#8) = 1#8 ↔ p := by
  split <;> simp [*]

theorem flag_eq_zero_iff (p : Prop) [Decidable p] : (if p then 1#8 else 0#8) = 0#8 ↔ ¬p := by
  split <;> simp [*]

theorem sum9_toNat (a b : Byte) : (sum9 a b).toNat = a.toNat + b.toNat := by
  have ha := a.isLt
  have hb := b.isLt
  rw [sum9, BitVec.toNat_add, BitVec.toNat_setWidth, BitVec.toNat_setWidth]
  omega

theorem carryFlag_eq (a b : Byte) :
    carryFlag a b = if 255 < a.toNat + b.toNat then 1#8 else 0#8 := by
  have hbit : (sum9 a b).getLsbD 8 = decide (255 < a.toNat + b.toNat) := by
    rw [← sum9_toNat]
    exact (sum9 a b).msb_eq_decide
  rw [carryFlag, hbit, flagByte_decide]

theorem greaterFlag_eq (a b : Byte) :
    greaterFlag a b = if b.toNat < a.toNat then 1#8 else 0#8 :=
  flagByte_decide (b.toNat < a.toNat)

theorem greaterFlag_eq_one_iff (a b : Byte) : greaterFlag a b = 1#8 ↔ b.toNat < a.toNat := by
  rw [greaterFlag_eq, flag_eq_one_iff]

theorem greaterFlag_eq_zero_iff (a b : Byte) : greaterFlag a b = 0#8 ↔ a.toNat ≤ b.toNat := by
  rw [greaterFlag_eq, flag_eq_zero_iff, not_lt]

theorem lowBitFlag_toNat (a : Byte) : (lowBitFlag a).toNat = a.toNat % 2 := by
  simp [lowBitFlag, Nat.and_one_is_mod]

theorem highBitFlag_toNat (a : Byte) : (highBitFlag a).toNat = a.toNat / 128 := by
  simp [highBitFlag, Nat.shiftRight_eq_div_pow]

/-! The handlers, with the registers the second write reads written out (R230 to R234). -/

theorem exec_addReg (x y : RegIx) (s : State) : exec (.addReg x y) s =
    .next (((s.setReg x ((sum9 (s.reg x) (s.reg y)).setWidth 8)).setReg 15
      (carryFlag (s.reg x) (s.reg y))).apply .next) := rfl

theorem exec_sub (x y : RegIx) (s : State) : exec (.sub x y) s =
    .next (((s.setReg 15 (greaterFlag (s.reg x) (s.reg y))).setReg x
      ((if x = 15 then greaterFlag (s.reg x) (s.reg y) else s.reg x) -
        if y = 15 then greaterFlag (s.reg x) (s.reg y) else s.reg y)).apply .next) := by
  simp only [← State.reg_setReg]
  rfl

theorem exec_subn (x y : RegIx) (s : State) : exec (.subn x y) s =
    .next (((s.setReg 15 (greaterFlag (s.reg y) (s.reg x))).setReg x
      ((if y = 15 then greaterFlag (s.reg y) (s.reg x) else s.reg y) -
        if x = 15 then greaterFlag (s.reg y) (s.reg x) else s.reg x)).apply .next) := by
  simp only [← State.reg_setReg]
  rfl

theorem exec_shr (x y : RegIx) (s : State) : exec (.shr x y) s =
    .next (((s.setReg 15 (lowBitFlag (s.reg x))).setReg x
      ((if x = 15 then lowBitFlag (s.reg x) else s.reg x) >>> 1)).apply .next) := by
  simp only [← State.reg_setReg]
  rfl

theorem exec_shl (x y : RegIx) (s : State) : exec (.shl x y) s =
    .next (((s.setReg 15 (highBitFlag (s.reg x))).setReg x
      ((if x = 15 then highBitFlag (s.reg x) else s.reg x) <<< 1)).apply .next) := by
  simp only [← State.reg_setReg]
  rfl

/-- Settles O40: the carry is written last, over the sum where x is F. -/
theorem addWithCarry : Obligations.AddWithCarry := by
  unfold Obligations.AddWithCarry
  intro s x y
  obtain ⟨t, ht, hvf, hx, hpc, hframe⟩ := exec_setReg_setReg_next (exec_addReg x y s)
  refine ⟨t, ht, fun hne => ?_, hvf.trans (carryFlag_eq _ _), hpc, hframe⟩
  rw [hx hne, BitVec.toNat_setWidth, sum9_toNat]

/-- Settles O41: the difference is written last and reads the flag wherever x or y is F. -/
theorem subtractVyFromVx : Obligations.SubtractVyFromVx := by
  unfold Obligations.SubtractVyFromVx
  intro s x y f hf
  obtain rfl := hf.trans (greaterFlag_eq _ _).symm
  obtain ⟨t, ht, hx, hvf, hpc, hframe⟩ := exec_setReg_setReg_next (exec_sub x y s)
  refine ⟨t, ht, fun hx15 hy15 => ⟨hvf hx15.symm, by rw [hx, if_neg hx15, if_neg hy15]⟩,
    fun hx15 hy15 => ⟨hvf hx15.symm, by rw [hx, if_neg hx15, if_pos hy15]⟩,
    fun hx15 hy15 => ?_, fun hx15 hy15 => ?_, hpc, hframe⟩
  · subst hx15
    rw [hx, if_pos rfl, if_neg hy15]
  · subst hx15 hy15
    rw [hx, BitVec.sub_self]

/-- Settles O42: as O41, with minuend and subtrahend exchanged. -/
theorem subtractVxFromVy : Obligations.SubtractVxFromVy := by
  unfold Obligations.SubtractVxFromVy
  intro s x y f hf
  obtain rfl := hf.trans (greaterFlag_eq _ _).symm
  obtain ⟨t, ht, hx, hvf, hpc, hframe⟩ := exec_setReg_setReg_next (exec_subn x y s)
  refine ⟨t, ht, fun hx15 hy15 => ⟨hvf hx15.symm, by rw [hx, if_neg hx15, if_neg hy15]⟩,
    fun hx15 hy15 => ⟨hvf hx15.symm, by rw [hx, if_neg hx15, if_pos hy15]⟩,
    fun hx15 hy15 => ?_, fun hx15 hy15 => ?_, hpc, hframe⟩
  · subst hx15
    rw [hx, if_neg hy15, if_pos rfl]
  · subst hx15 hy15
    rw [hx, BitVec.sub_self]

/-- A flag of one bit has nothing left after a shift to the right. -/
theorem lowBitFlag_ushiftRight (a : Byte) : lowBitFlag a >>> 1 = 0#8 := by
  apply BitVec.eq_of_toNat_eq
  rw [BitVec.toNat_ushiftRight, lowBitFlag_toNat, Nat.shiftRight_eq_div_pow, BitVec.toNat_zero]
  omega

theorem highBitFlag_eq (a : Byte) : highBitFlag a = if a.toNat < 128 then 0#8 else 1#8 := by
  have ha := a.isLt
  apply BitVec.eq_of_toNat_eq
  rw [highBitFlag_toNat]
  split <;> simp <;> omega

/-- Settles O43: the shift is written last and shifts the flag where x is F. -/
theorem shiftsByOne : Obligations.ShiftsByOne := by
  unfold Obligations.ShiftsByOne
  refine fun s x y => ⟨?shr, ?shl⟩
  case shr =>
    obtain ⟨t, ht, hx, hvf, hpc, hframe⟩ := exec_setReg_setReg_next (exec_shr x y s)
    refine ⟨t, ht, fun hx15 => ⟨?_, ?_⟩, fun hx15 => ?_, hpc, hframe⟩
    · rw [hx, if_neg hx15, BitVec.toNat_ushiftRight, Nat.shiftRight_eq_div_pow, pow_one]
    · rw [hvf hx15.symm, lowBitFlag_toNat]
    · subst hx15
      rw [hx, if_pos rfl, lowBitFlag_ushiftRight]
  case shl =>
    obtain ⟨t, ht, hx, hvf, hpc, hframe⟩ := exec_setReg_setReg_next (exec_shl x y s)
    refine ⟨t, ht, fun hx15 => ⟨?_, ?_⟩, fun hx15 => ?_, hpc, hframe⟩
    · rw [hx, if_neg hx15, BitVec.toNat_shiftLeft, Nat.shiftLeft_eq, pow_one]
    · rw [hvf hx15.symm, highBitFlag_toNat]
    · subst hx15
      rw [hx, if_pos rfl, highBitFlag_eq]
      split <;> rfl

/-! What the flags say (R227). -/

theorem lowBitFlag_eq (a : Byte) : lowBitFlag a = if a.getLsbD 0 = true then 1#8 else 0#8 := by
  revert a
  decide

theorem highBitFlag_eq_bit (a : Byte) : highBitFlag a = if a.getLsbD 7 = true then 1#8 else 0#8 := by
  revert a
  decide

/-- What an instruction does to VF whose effect is a write of another register and NEXT. -/
theorem exec_setReg_next_keeps_vf (hx : x ≠ 15) (h : exec i s = .next ((s.setReg x b).apply .next)) :
    ∃ t, exec i s = .next t ∧ t.reg 15 = s.reg 15 := by
  obtain ⟨t, ht, -, -, hframe⟩ := exec_setReg_next h
  exact ⟨t, ht, hframe (.reg 15) (by simpa using Ne.symm hx)⟩

/-- Settles O44: what the flags of O40 to O43 say, and the instructions that write Vx alone. -/
theorem flagConventions : Obligations.FlagConventions := by
  unfold Obligations.FlagConventions
  refine fun s x y kk => ⟨?add, fun hx15 => ⟨?sub, ?subn, ?shr, ?shl, ?others⟩⟩
  case add =>
    obtain ⟨t, ht, -, hvf, -⟩ := addWithCarry s x y
    exact ⟨t, ht, by rw [hvf, flag_eq_one_iff], by rw [hvf, flag_eq_zero_iff, not_lt]⟩
  case sub =>
    obtain ⟨t, ht, hx, hvf, -⟩ := exec_setReg_setReg_next (exec_sub x y s)
    refine ⟨t, ht, by rw [hvf hx15.symm, greaterFlag_eq_one_iff],
      by rw [hvf hx15.symm, greaterFlag_eq_zero_iff], fun hy15 heq => ?_⟩
    rw [hx, if_neg hx15, if_neg hy15, heq, BitVec.sub_self]
  case subn =>
    obtain ⟨t, ht, hx, hvf, -⟩ := exec_setReg_setReg_next (exec_subn x y s)
    refine ⟨t, ht, by rw [hvf hx15.symm, greaterFlag_eq_one_iff],
      by rw [hvf hx15.symm, greaterFlag_eq_zero_iff], fun hy15 heq => ?_⟩
    rw [hx, if_neg hx15, if_neg hy15, heq, BitVec.sub_self]
  case shr =>
    obtain ⟨t, ht, -, hvf, -⟩ := exec_setReg_setReg_next (exec_shr x y s)
    exact ⟨t, ht, (hvf hx15.symm).trans (lowBitFlag_eq _)⟩
  case shl =>
    obtain ⟨t, ht, -, hvf, -⟩ := exec_setReg_setReg_next (exec_shl x y s)
    exact ⟨t, ht, (hvf hx15.symm).trans (highBitFlag_eq_bit _)⟩
  case others =>
    have hkeep {j : Instr} {b : Byte} := exec_setReg_next_keeps_vf (i := j) (s := s) (b := b) hx15
    simp only [List.forall_mem_cons]
    exact ⟨hkeep rfl, hkeep rfl, hkeep rfl, hkeep rfl, hkeep rfl, hkeep rfl, hkeep rfl, nofun⟩

end Sys2Proof.Machine
end

section
/-!
The index register family (O47, O48), and what Fx55 stores read back by Fx65 (O52).
-/

namespace Sys2Proof.Machine

variable {s : State} {x : RegIx}

theorem exec_addIVx (x : RegIx) (s : State) : exec (.addIVx x) s =
    finish s ((s.indexSum x).map fun w => (s.setIreg w).apply .next) := rfl

/-- A sum that fits in 16 bits (R261). -/
theorem exec_addIVx_of_le (h : s.ireg.toNat + (s.reg x).toNat ≤ 0xFFFF) : exec (.addIVx x) s =
    .next ((s.setIreg (s.ireg + zextByte (s.reg x))).apply .next) := by
  rw [exec_addIVx, State.indexSum, if_pos h, map_ok, finish_ok]

/-- A sum that does not fit (R327). -/
theorem exec_addIVx_of_gt (h : 0xFFFF < s.ireg.toNat + (s.reg x).toNat) : exec (.addIVx x) s =
    .next (raise (.iOverflow s.pc (s.ireg.toNat + (s.reg x).toNat)) s) := by
  rw [exec_addIVx, State.indexSum, if_neg (by omega), map_error, finish_fatal]

/-- A byte keeps its number as a word (R103). -/
@[simp] theorem zextByte_toNat (b : Byte) : (zextByte b).toNat = b.toNat :=
  BitVec.toNat_setWidth_of_le (by decide)

/-- Settles O47: the bound on the sum decides, and below it the 16-bit sum is exact. -/
theorem addToIndex : Obligations.AddToIndex := by
  unfold Obligations.AddToIndex
  refine fun s x => ⟨fun h => ?_, fun h => ⟨_, exec_addIVx_of_gt h, raise_fault _ s⟩⟩
  have hsum : (s.ireg + zextByte (s.reg x)).toNat = s.ireg.toNat + (s.reg x).toNat := by
    rw [BitVec.toNat_add, zextByte_toNat]
    omega
  have hframe := ((s.setIreg_changesOnly (s.ireg + zextByte (s.reg x))).apply .next).mono
    (qs := [.ireg, .pc]) (by simp)
  exact ⟨_, exec_addIVx_of_le h, hsum, rfl, hframe⟩

/-- Five times a byte fits in a word (R262). -/
theorem glyphAddr_toNat (b : Byte) : (glyphAddr b).toNat = b.toNat * 5 := by
  have hb := b.isLt
  rw [glyphAddr, BitVec.toNat_mul, zextByte_toNat, show (5 : Word).toNat = 5 from rfl]
  omega

/-- Settles O48: the handler writes `I` with the glyph address. -/
theorem glyphIndex : Obligations.GlyphIndex := by
  unfold Obligations.GlyphIndex
  intro s x
  have hframe := ((s.setIreg_changesOnly (glyphAddr (s.reg x))).apply .next).mono
    (qs := [.ireg, .pc]) (by simp)
  exact ⟨_, rfl, glyphAddr_toNat (s.reg x), rfl, hframe⟩

/-- Settles O52: with the same `I` the load reads the addresses the store wrote, and each byte there
is the register stored. -/
theorem storeThenLoadRoundTrip : Obligations.StoreThenLoadRoundTrip := by
  unfold Obligations.StoreThenLoadRoundTrip
  intro s t u x hwf hin hstore hmem hireg
  obtain rfl := Host.Outcome.next.inj ((exec_ldMemVx_of_le hin).symm.trans hstore)
  have hea : ∀ k, u.ea k = s.ea k := fun k => congrArg (fun w : Word => w.toNat + k) hireg
  refine ⟨_, exec_ldVxMem_of_le (hea x.val ▸ hin), fun k hk => ?_⟩
  calc (u.loadRegs (u.bytesAtI (x.val + 1))).reg k
      = u.mem.get (u.ea k.val) := State.reg_loadRegs_bytesAtI (Nat.lt_succ_of_le hk)
    _ = (s.mem.setList (s.ea 0) (s.regsUpTo x)).get (s.ea k.val) := by rw [hmem, hea]; rfl
    _ = s.reg k := State.get_setList_regsUpTo hwf hk

end Sys2Proof.Machine
end

section
/-!
The key and timer family: the skips on keys (O54), the sound timer (O56), and Fx0A with the step that
ends its wait (O57).
-/

namespace Sys2Proof.Machine

variable {s : State} {x : RegIx}

theorem exec_skp (x : RegIx) (s : State) : exec (.skp x) s =
    finish s ((s.key (s.reg x)).map fun down => s.apply (.skipIf down)) := rfl

theorem exec_sknp (x : RegIx) (s : State) : exec (.sknp x) s =
    finish s ((s.key (s.reg x)).map fun down => s.apply (.skipIf (!down))) := rfl

theorem State.key_of_lt {b : Byte} (h : b.toNat < 16) :
    s.key b = .ok (s.keys.get ⟨b.toNat, h⟩) := dif_pos h

theorem State.key_of_gt {b : Byte} (h : 15 < b.toNat) :
    s.key b = .error (.fatal (.keyIndexOutOfRange s.pc b)) := dif_neg (by omega)

/-- Ex9E on a key index (R290). -/
theorem exec_skp_of_lt (h : (s.reg x).toNat < 16) : exec (.skp x) s =
    .next (s.apply (.skipIf (s.keys.get ⟨(s.reg x).toNat, h⟩))) := by
  rw [exec_skp, State.key_of_lt h, map_ok, finish_ok]

/-- ExA1 on a key index (R291). -/
theorem exec_sknp_of_lt (h : (s.reg x).toNat < 16) : exec (.sknp x) s =
    .next (s.apply (.skipIf (!s.keys.get ⟨(s.reg x).toNat, h⟩))) := by
  rw [exec_sknp, State.key_of_lt h, map_ok, finish_ok]

/-- A skip on a flag that is off. -/
theorem State.apply_skipIf_not_pc (s : State) (c : Bool) :
    (s.apply (.skipIf (!c))).pc = if c = true then s.pc + 2 else s.pc + 4 := by
  cases c <;> rfl

/-- Settles O54: on a key index each handler skips by one key of the snapshot it runs on, in a whole
step the one that step latched; the index check raises on every other byte. -/
theorem skipsOnKeys : Obligations.SkipsOnKeys := by
  unfold Obligations.SkipsOnKeys
  refine fun s x => ⟨fun h => ⟨?skp, ?sknp⟩, fun h => ⟨?skpRaise, ?sknpRaise⟩,
    fun hrun h => ?skpStep, fun hrun h => ?sknpStep⟩
  case skp => exact ⟨_, exec_skp_of_lt h, s.apply_skipIf_pc _, s.apply_changesOnly _⟩
  case sknp => exact ⟨_, exec_sknp_of_lt h, s.apply_skipIf_not_pc _, s.apply_changesOnly _⟩
  case skpRaise =>
    exact ⟨_, by rw [exec_skp, State.key_of_gt h, map_error, finish_fatal], raise_fault _ s⟩
  case sknpRaise =>
    exact ⟨_, by rw [exec_sknp, State.key_of_gt h, map_error, finish_fatal], raise_fault _ s⟩
  case skpStep =>
    have hskip := exec_skp_of_lt (s := s.latch.tick) (x := x) (by simpa using h)
    exact ⟨_, hrun.step_eq.trans hskip, (State.apply_skipIf_pc ..).trans (by simp)⟩
  case sknpStep =>
    have hskip := exec_sknp_of_lt (s := s.latch.tick) (x := x) (by simpa using h)
    exact ⟨_, hrun.step_eq.trans hskip, (State.apply_skipIf_not_pc ..).trans (by simp)⟩

/-- Settles O56: the handler writes ST alone. -/
theorem setSoundTimer : Obligations.SetSoundTimer := by
  unfold Obligations.SetSoundTimer
  intro s x
  have hframe := ((s.setSt_changesOnly (s.reg x)).apply .next).mono (qs := [.st, .pc]) (by simp)
  exact ⟨_, rfl, rfl, rfl, hframe⟩

theorem exec_ldVxK (x : RegIx) (s : State) :
    exec (.ldVxK x) s = .next ((s.setWait (.awaitingKey x)).apply .next) := rfl

/-- Settles O57: Fx0A writes `wait` alone, after the one scan of its own step (phase 2); the step that
ends the wait is the wait step of O12. -/
theorem waitForKey : Obligations.WaitForKey := by
  unfold Obligations.WaitForKey
  refine ⟨fun s x => ?enter, fun s x hrun => ?ownStep, fun s x k hf hw hk hlow => ?leave⟩
  case enter =>
    have hframe := ((s.setWait_changesOnly (.awaitingKey x)).apply .next).mono
      (qs := [.wait, .pc]) (by simp)
    exact ⟨_, exec_ldVxK x s, rfl, rfl, hframe⟩
  case ownStep => exact ⟨_, hrun.step_eq.trans (exec_ldVxK x _), rfl, by simp, by simp⟩
  case leave =>
    obtain ⟨t, ht, -, -, -, -, -, -, -, hpressed, -⟩ := keyWaitStep s x hf hw
    exact ⟨t, ht, (hpressed k hk hlow).1⟩

end Sys2Proof.Machine
end
